-- ==== Sys2Proof/Word.lean ====
section
/-!
DEFINITION. The word types of the DS1307_startlib CORE (00_scope.md R5, R6).
-/

namespace Sys2Proof

/-- A byte: 8 bits, bit 7 the most significant (R6). -/
abbrev Byte := BitVec 8

/-- A command word, `CMD_W` = 64 bits (R5, R50). -/
abbrev CommandWord := BitVec 64

/-- A response word, `RSP_W` = 40 bits (R5, R50). -/
abbrev ResponseWord := BitVec 40

end Sys2Proof
end

