-- ==== Sys2Proof/Syntax.lean ====
section
/-!
DEFINITION. The ten operations of the CORE as syntax (30_encoding.md R51, R52): one constructor per row of the opcode table,
its operands the fields of the row's format.
-/

namespace Sys2Proof

/-- A legal command's operation and operands. -/
inductive Instr where
  /-- ENCBCD, format B1 (R70). -/
  | encbcd (value : Byte)
  /-- DECBCD, format B2: the byte, the tens mask and the ones mask (R72). -/
  | decbcd (byte : Byte) (tm om : BitVec 4)
  /-- CLAMP, format C: signed 16-bit value, lower and upper bound (R80). -/
  | clamp (value lo hi : BitVec 16)
  /-- TIMEENC, format T (R90). The meridian is the 2-bit port field of R19; `0b11` spells no value and is refused by
  WellFormed and by the decoder. -/
  | timeenc (second minute hour : Byte) (oscillatorDisabled is12HourMode : Bool) (meridian : BitVec 2)
  /-- TIMEDEC, format R3: the seconds, minutes and hours register bytes (R96). -/
  | timedec (b0 b1 b2 : Byte)
  /-- DATEENC, format D (R110). -/
  | dateenc (dayOfWeek dayOfMonth month year : Byte)
  /-- DATEDEC, format R4: the day-of-week, day-of-month, month and year register bytes (R115). -/
  | datedec (b0 b1 b2 b3 : Byte)
  /-- MAPOFF, format M1 (R130). -/
  | mapoff (offset : BitVec 16)
  /-- RAMRD, format M1 (R133). -/
  | ramrd (offset : BitVec 16)
  /-- RAMWR, format M2 (R135). -/
  | ramwr (offset : BitVec 16) (value : Byte)
  deriving DecidableEq, Repr

/-- The operations by name: the value of the `op` field selects one (R51). -/
inductive Op where
  | encbcd | decbcd | clamp | timeenc | timedec | dateenc | datedec | mapoff | ramrd | ramwr
  deriving DecidableEq, Repr

/-- The operation an instruction is. -/
def Instr.op : Instr → Op
  | .encbcd _ => .encbcd
  | .decbcd _ _ _ => .decbcd
  | .clamp _ _ _ => .clamp
  | .timeenc _ _ _ _ _ _ => .timeenc
  | .timedec _ _ _ => .timedec
  | .dateenc _ _ _ _ => .dateenc
  | .datedec _ _ _ _ => .datedec
  | .mapoff _ => .mapoff
  | .ramrd _ => .ramrd
  | .ramwr _ _ => .ramwr

end Sys2Proof
end

