-- ==== Sys2Proof/WellFormed.lean ====
section
/-!
DEFINITION. Which instruction terms are commands. Every operand's width is in its type; the one further condition is
TIMEENC's meridian (30_encoding.md R57 item 4; 10_state.md R19).
-/

namespace Sys2Proof

/-- The check, one arm per constructor. -/
def Instr.wf : Instr → Bool
  | .encbcd _ => true
  | .decbcd _ _ _ => true
  | .clamp _ _ _ => true
  | .timeenc _ _ _ _ _ meridian => meridian != 0b11#2
  | .timedec _ _ _ => true
  | .dateenc _ _ _ _ => true
  | .datedec _ _ _ _ => true
  | .mapoff _ => true
  | .ramrd _ => true
  | .ramwr _ _ => true

/-- An instruction term that some command word spells. -/
abbrev WellFormed (i : Instr) : Prop := i.wf = true

end Sys2Proof
end

