-- ==== Sys2Proof/Decode.lean ====
section
/-!
DEFINITION. The total decoder of command words (30_encoding.md R50 to R53, R57) and, after it, the encoder written from the
same tables. Every 64-bit word is one of the ten operations or illegal.
-/

namespace Sys2Proof

/-- Why a word is illegal: the four conditions of R57, by name. The response is the same for all (log entry 21). -/
inductive Illegal where
  /-- R57 item 1: `op` is 0x0 or 0xB to 0xF. -/
  | unassignedOp
  /-- R57 item 2: `rsv` is not zero. -/
  | reservedBits
  /-- R57 item 3: a must-be-zero bit of `arg` is not zero. -/
  | unusedArgBits
  /-- R57 item 4: TIMEENC with meridian `0b11`. -/
  | meridian
  deriving DecidableEq, Repr

/-- The `op` field, bits 63:60 (R50). -/
def opField (w : CommandWord) : BitVec 4 := w.extractLsb' 60 4

/-- The `rsv` field, bits 59:48 (R50). -/
def rsvField (w : CommandWord) : BitVec 12 := w.extractLsb' 48 12

/-- The `arg` field, bits 47:0 (R50). -/
def argField (w : CommandWord) : BitVec 48 := w.extractLsb' 0 48

/-- The opcode map (R51). -/
def Op.code : Op → BitVec 4
  | .encbcd => 0x1
  | .decbcd => 0x2
  | .clamp => 0x3
  | .timeenc => 0x4
  | .timedec => 0x5
  | .dateenc => 0x6
  | .datedec => 0x7
  | .mapoff => 0x8
  | .ramrd => 0x9
  | .ramwr => 0xA

/-- The opcode map read the other way; 0x0 and 0xB to 0xF select nothing (R51, R57). -/
def Op.ofCode? (c : BitVec 4) : Option Op :=
  match c.toNat with
  | 0x1 => some .encbcd
  | 0x2 => some .decbcd
  | 0x3 => some .clamp
  | 0x4 => some .timeenc
  | 0x5 => some .timedec
  | 0x6 => some .dateenc
  | 0x7 => some .datedec
  | 0x8 => some .mapoff
  | 0x9 => some .ramrd
  | 0xA => some .ramwr
  | _ => none

/-- How many low bits of `arg` the operation's format uses; the bits above are must-be-zero (R52). -/
def Op.argWidth : Op → Nat
  | .encbcd => 8
  | .decbcd => 16
  | .clamp => 48
  | .timeenc => 28
  | .timedec => 24
  | .dateenc => 32
  | .datedec => 32
  | .mapoff => 16
  | .ramrd => 16
  | .ramwr => 24

/-- The operands of a word whose `op`, `rsv` and must-be-zero bits are right, field by field (R52, R54). -/
def decodeOperands (op : Op) (w : CommandWord) : Except Illegal Instr :=
  match op with
  | .encbcd => .ok (.encbcd (w.extractLsb' 0 8))
  | .decbcd => .ok (.decbcd (w.extractLsb' 0 8) (w.extractLsb' 12 4) (w.extractLsb' 8 4))
  | .clamp => .ok (.clamp (w.extractLsb' 0 16) (w.extractLsb' 16 16) (w.extractLsb' 32 16))
  | .timeenc =>
    if w.extractLsb' 26 2 = 0b11#2 then .error .meridian
    else .ok (.timeenc (w.extractLsb' 0 8) (w.extractLsb' 8 8) (w.extractLsb' 16 8) (w.getLsbD 24) (w.getLsbD 25)
      (w.extractLsb' 26 2))
  | .timedec => .ok (.timedec (w.extractLsb' 0 8) (w.extractLsb' 8 8) (w.extractLsb' 16 8))
  | .dateenc => .ok (.dateenc (w.extractLsb' 0 8) (w.extractLsb' 8 8) (w.extractLsb' 16 8) (w.extractLsb' 24 8))
  | .datedec => .ok (.datedec (w.extractLsb' 0 8) (w.extractLsb' 8 8) (w.extractLsb' 16 8) (w.extractLsb' 24 8))
  | .mapoff => .ok (.mapoff (w.extractLsb' 0 16))
  | .ramrd => .ok (.ramrd (w.extractLsb' 0 16))
  | .ramwr => .ok (.ramwr (w.extractLsb' 0 16) (w.extractLsb' 16 8))

/-- The total decoder: an instruction, or the reason the word is illegal (R57). -/
def decode (w : CommandWord) : Except Illegal Instr :=
  match Op.ofCode? (opField w) with
  | none => .error .unassignedOp
  | some op =>
    if rsvField w ≠ 0 then .error .reservedBits
    else if argField w >>> op.argWidth ≠ 0 then .error .unusedArgBits
    else decodeOperands op w

/-- The `arg` field of an instruction (R52). -/
def encodeArg : Instr → BitVec 48
  | .encbcd value => 0#40 ++ value
  | .decbcd byte tm om => 0#32 ++ tm ++ om ++ byte
  | .clamp value lo hi => hi ++ lo ++ value
  | .timeenc second minute hour oscillatorDisabled is12HourMode meridian =>
    0#20 ++ meridian ++ BitVec.ofBool is12HourMode ++ BitVec.ofBool oscillatorDisabled ++ hour ++ minute ++ second
  | .timedec b0 b1 b2 => 0#24 ++ b2 ++ b1 ++ b0
  | .dateenc dayOfWeek dayOfMonth month year => 0#16 ++ year ++ month ++ dayOfMonth ++ dayOfWeek
  | .datedec b0 b1 b2 b3 => 0#16 ++ b3 ++ b2 ++ b1 ++ b0
  | .mapoff offset => 0#32 ++ offset
  | .ramrd offset => 0#32 ++ offset
  | .ramwr offset value => 0#24 ++ value ++ offset

/-- The encoder: `op`, a zero `rsv`, `arg` (R50). -/
def encode (i : Instr) : CommandWord := i.op.code ++ 0#12 ++ encodeArg i

/-- A row of the opcode table: a word selects the operation when `w & mask = match` (R53). -/
structure OpcodeRow where
  op : Op
  pattern : CommandWord
  mask : CommandWord
  deriving DecidableEq, Repr

/-- The match and mask of every operation, as R53 and spec/opcode_table.json print them. -/
def opcodeTable : List OpcodeRow :=
  [ ⟨.encbcd, 0x1000000000000000, 0xFFFFFFFFFFFFFF00⟩,
    ⟨.decbcd, 0x2000000000000000, 0xFFFFFFFFFFFF0000⟩,
    ⟨.clamp, 0x3000000000000000, 0xFFFF000000000000⟩,
    ⟨.timeenc, 0x4000000000000000, 0xFFFFFFFFF0000000⟩,
    ⟨.timedec, 0x5000000000000000, 0xFFFFFFFFFF000000⟩,
    ⟨.dateenc, 0x6000000000000000, 0xFFFFFFFF00000000⟩,
    ⟨.datedec, 0x7000000000000000, 0xFFFFFFFF00000000⟩,
    ⟨.mapoff, 0x8000000000000000, 0xFFFFFFFFFFFF0000⟩,
    ⟨.ramrd, 0x9000000000000000, 0xFFFFFFFFFFFF0000⟩,
    ⟨.ramwr, 0xA000000000000000, 0xFFFFFFFFFF000000⟩ ]

/-- The command word whose bits are the number `w` read to `nbits` bits; a command has 64 bits and there is one command
length (R50), so a number that needs more is no command (log entry 20). -/
def tableWord? (nbits w : Nat) : Option CommandWord :=
  if w % 2 ^ nbits < 2 ^ 64 then some (BitVec.ofNat 64 (w % 2 ^ nbits)) else none

/-- The instruction the decoder reads from the command whose bits are `w`; none where it refuses the word. -/
def decodeTableWord (nbits w : Nat) : Option Instr :=
  match tableWord? nbits w with
  | none => none
  | some c =>
    match decode c with
    | .ok i => some i
    | .error _ => none

end Sys2Proof
end

