-- ==== Sys2Proof/Config.lean ====
section
/-!
DEFINITION. The parameters of the CORE (00_scope.md R5) and the free values: what the transport answers (20_memory.md R42)
and the device address, which the spec leaves OPEN.
-/

namespace Sys2Proof

/-- One answer of the transport to the transaction in progress. `pending`: it has not answered yet (R186: the duration "is
unbounded as far as D0 says"; U8). `reply status bytes`: the `XSTATUS_W` = 8-bit transport status that `endTransaction`
returned, 0 = acknowledged, and the bytes the data phase of a read delivers, in order (R40; there may be none, R42). -/
inductive Answer where
  | pending
  | reply (status : Byte) (bytes : List Byte)
  deriving DecidableEq, Repr, Inhabited

namespace Config

/-! Register addresses and the storage window, "fixed by the peripheral's datasheet" (R5, R31, R32). -/

def addrSeconds : Byte := 0x00
def addrMinutes : Byte := 0x01
def addrHours : Byte := 0x02
def addrDow : Byte := 0x03
def addrDom : Byte := 0x04
def addrMonth : Byte := 0x05
def addrYear : Byte := 0x06

/-- `WINDOW_START`: D0's `baseAddress` and `windowStart`, one constant (R5, C7). -/
def windowStart : Nat := 0x08

/-- `WINDOW_SIZE`: the number of bytes in the window (R5). -/
def windowSize : Nat := 56

/-- `WINDOW_END` (R5). -/
def windowEnd : Nat := windowStart + windowSize - 1

/-- The number of locations of the peripheral's register space P, addresses 0x00 to 0x3F (R21, R30). -/
def spaceSize : Nat := 64

/-- What a byte of P that nothing has written reads as. DESIGN CHOICE (log entry 6), unsafe: R23 leaves the content of P
at reset unspecified. -/
def unwrittenByte : Byte := 0x00

/-- The spec's default of `DOW_FALLBACK`, ordinal 1, held as the ordinal minus one (R5, D13; log entry 7). -/
def dowFallbackDefault : Fin 7 := 0

/-- `DEV_ADDR`, left OPEN by R5: a free value, no claim can see what it is (log entry 8). -/
opaque devAddr : Nat

/-- The transport's answers beyond those the environment has lined up in State: free values, under no law (R42). The
argument is State's counter `draws`, so every poll draws afresh (log entry 3). -/
opaque freeAnswer : Nat → Answer

end Config

end Sys2Proof
end

