-- ==== Sys2Proof/Machine/State.lean ====
section
/-!
DEFINITION. The state as plain data (10_state.md). The CORE itself keeps nothing between commands (R10 to R14, R24, R25);
State holds what stands at its ports (the inputs, the responses), the one transport transaction that can be in progress
(R22), the transport's coming answers, the peripheral's register space P (R21), and the parameters that are fixed when the
hardware is built (R5, R172). INVENTORY.md lists every field with its rule and reset value.
-/

namespace Sys2Proof.Machine

/-- What stops a step. No command stops the machine: every failure of a command is a response (R150, R158, R160). -/
inductive Fault where
  /-- Raised by `step` on an out-of-band change aimed at an address above 0x3F, where P has no location (R21, R30).
  Safe: the run stops, and no command of the CORE reaches such an address (R131). -/
  | noSuchRegister (address : Byte)
  deriving DecidableEq, Repr

/-- Why a step has no meaning. -/
inductive Refusal where
  /-- Raised by `exec` for an instruction that has no meaning yet. Safe. No arm of this model answers it. -/
  | notModelled (mnemonic : String)
  deriving DecidableEq, Repr

/-- The status codes of a response (R56); their numbers are `Status.code`. -/
inductive Status where
  | ok | transportFailure | illegalCommand | operandFault
  deriving DecidableEq, Repr

/-- A response: `rsp[39:32]` the status, `rsp[31:0]` the payload (R55). Its word is `Response.word`. -/
structure Response where
  status : Status
  payload : BitVec 32
  deriving DecidableEq, Repr

/-- One transport transaction of one byte: `MemRead(addr, 1)` or `MemWrite(addr, 1, v)` (R41). -/
inductive Transfer where
  | read (addr : Byte)
  | write (addr value : Byte)
  deriving DecidableEq, Repr

/-- A call of the transport's contract (R40). The handle is opaque and links the calls of one transaction; here the calls
of a transaction stand in one list, so it is left out (log entry 17). -/
inductive BusCall where
  | beginTransaction (deviceAddress : Nat)
  | writeByte (byte : Byte)
  | endTransaction (releaseBus : Bool)
  | requestBytes (deviceAddress count : Nat) (releaseBus : Bool)
  | readByte
  deriving DecidableEq, Repr

/-- What arrives at the ports of the hardware between commands (R9). -/
inductive Input where
  /-- The host presents a command (R50, R163). -/
  | command (w : CommandWord)
  /-- Someone other than the CORE (the host's own transfer, R175; another bus user; the peripheral itself) changes one
  byte of P between commands (R21, R44, R48). -/
  | external (address value : Byte)
  /-- The CORE is reset while idle (R170, R171). -/
  | reset
  deriving DecidableEq, Repr

/-- The transport that is attached: the real one, of which nothing is known but its contract (R42), or one of the two
variants of the reference transport, for test vectors and programs (R49). -/
inductive Transport where
  | unconstrained | reference | failing
  deriving DecidableEq, Repr

/-- The parameters fixed when the hardware is built (R5, R172). -/
structure Params where
  /-- `DOW_FALLBACK` minus one: the ordinal is in 1..7 (R5, R116). -/
  dowFallback : Fin 7
  /-- `DEV_ADDR` (R5). -/
  devAddr : Nat
  deriving DecidableEq, Repr

/-- The register space P: the bytes that differ from `Config.unwrittenByte`, by rising address (`Memory.wf`). -/
abbrev Memory := List Host.Cell

/-- The machine. -/
structure State where
  /-- The parameters (R5). -/
  params : Params
  /-- What comes to the ports, oldest first. -/
  inputs : List Input
  /-- The responses produced, newest first: the host's record, read by nothing (R13). -/
  responses : List Response
  /-- The transport transaction in progress, if any (R22). -/
  inFlight : Option Transfer
  /-- Which transport is attached. -/
  transport : Transport
  /-- The peripheral's register space P (R21, R49). -/
  mem : Memory
  /-- The coming answers of the unconstrained transport, as far as they are lined up (R42). -/
  answers : List Answer
  /-- The index of the next free answer (`Config.freeAnswer`). -/
  draws : Nat
  /-- The finished transactions as the calls made, newest first: the transport's record, read by nothing (R41, R137). -/
  busLog : List (List BusCall)
  deriving DecidableEq, Repr

/-- The machine right after reset (R23, R170): idle, nothing in progress, nothing presented yet. The fields that R23 gives
no value for are the model's choices, log entries 1, 3 to 8 and 17. -/
def State.reset : State where
  params := { dowFallback := Config.dowFallbackDefault, devAddr := Config.devAddr }
  inputs := []
  responses := []
  inFlight := none
  transport := .unconstrained
  mem := []
  answers := []
  draws := 0
  busLog := []

end Sys2Proof.Machine
end

