-- ==== Sys2Proof/Machine/Flags.lean ====
section
/-!
DEFINITION. The CORE has no flags and no condition codes (10_state.md R13). What takes their place is the status of each
response: its codes and its place in the response word (30_encoding.md R55, R56).
-/

namespace Sys2Proof.Machine

/-- The status codes (R56). 0x04 to 0xFF are never produced. -/
def Status.code : Status → Byte
  | .ok => 0x00
  | .transportFailure => 0x01
  | .illegalCommand => 0x02
  | .operandFault => 0x03

/-- The 40-bit response word: the status above the payload (R50, R55). -/
def Response.word (r : Response) : ResponseWord := r.status.code ++ r.payload

end Sys2Proof.Machine
end

