-- ==== Sys2Proof/Machine/Operands.lean ====
section
/-!
DEFINITION. How an operand becomes a value (30_encoding.md R54), the structured values on the ports (10_state.md R15, R16,
R19), and the layout of a result in the payload (R55).
-/

namespace Sys2Proof.Machine

/-- An 8-bit field or a 16-bit offset as the number it stands for, never negative (R54). -/
def unsigned {n : Nat} (v : BitVec n) : Nat := v.toNat

/-- A CLAMP operand as the integer it stands for, two's complement: `f[14:0] - 32768*f[15]` (R54). -/
def signed (f : BitVec 16) : Int := (f.extractLsb' 0 15).toNat - 32768 * (f.getLsbD 15).toNat

/-- The meridian of a TimeValue (R19). -/
inductive Meridian where
  | notApplicable | am | pm
  deriving DecidableEq, Repr

/-- The meridian's 2-bit port field (R19). -/
def Meridian.code : Meridian → BitVec 2
  | .notApplicable => 0b00
  | .am => 0b01
  | .pm => 0b10

/-- The meridian a 2-bit port field spells; `0b11` spells none (R19). -/
def Meridian.ofCode? (c : BitVec 2) : Option Meridian :=
  match c.toNat with
  | 0b00 => some .notApplicable
  | 0b01 => some .am
  | 0b10 => some .pm
  | _ => none

/-- The structured time (R15). -/
structure TimeValue where
  second : Byte
  minute : Byte
  hour : Byte
  oscillatorDisabled : Bool
  is12HourMode : Bool
  meridian : Meridian
  deriving DecidableEq, Repr

/-- A TimeValue that meets the field domains and the invariant of R15. -/
def TimeValue.valid (t : TimeValue) : Bool :=
  t.second.toNat ≤ 59 && t.minute.toNat ≤ 59 &&
    if t.is12HourMode then 1 ≤ t.hour.toNat && t.hour.toNat ≤ 12 && t.meridian != .notApplicable
    else t.hour.toNat ≤ 23 && t.meridian == .notApplicable

/-- The structured date (R16). -/
structure DateValue where
  dayOfWeek : Byte
  dayOfMonth : Byte
  month : Byte
  year : Byte
  deriving DecidableEq, Repr

/-- A DateValue whose four fields are in their domains (R16); no calendar validation. -/
def DateValue.valid (d : DateValue) : Bool :=
  1 ≤ d.dayOfWeek.toNat && d.dayOfWeek.toNat ≤ 7 && 1 ≤ d.dayOfMonth.toNat && d.dayOfMonth.toNat ≤ 31 &&
    1 ≤ d.month.toNat && d.month.toNat ≤ 12 && d.year.toNat ≤ 99

/-- A one-byte result: `[7:0]`, the rest zero (R55). -/
def payloadByte (b : Byte) : BitVec 32 := 0#24 ++ b

/-- A CLAMP result: `[15:0]` in two's complement, the rest zero (R55). -/
def payloadHalf (h : BitVec 16) : BitVec 32 := 0#16 ++ h

/-- Format R3 as a result: byte `i` in bits `8*i+7 : 8*i` (R36, R55). -/
def payloadBytes3 (b0 b1 b2 : Byte) : BitVec 32 := 0#8 ++ b2 ++ b1 ++ b0

/-- Format R4 as a result (R36, R55). -/
def payloadBytes4 (b0 b1 b2 b3 : Byte) : BitVec 32 := b3 ++ b2 ++ b1 ++ b0

/-- Format T as a result (R52, R55, R96). -/
def payloadTime (t : TimeValue) : BitVec 32 :=
  0#4 ++ t.meridian.code ++ BitVec.ofBool t.is12HourMode ++ BitVec.ofBool t.oscillatorDisabled ++ t.hour ++ t.minute ++
    t.second

/-- Format D as a result (R52, R55, R115). -/
def payloadDate (d : DateValue) : BitVec 32 := d.year ++ d.month ++ d.dayOfMonth ++ d.dayOfWeek

end Sys2Proof.Machine
end

