-- ==== Sys2Proof/Machine/Ops.lean ====
section
/-!
DEFINITION. The shared operations: reading and writing a byte of P (20_memory.md R30, R49), producing a response, raising a
failure (60_exceptions.md R158), and the one transport transaction of a RAMRD or RAMWR (R40 to R42, R137).
-/

namespace Sys2Proof.Machine

/-- The byte at an address of P. -/
def Memory.read : Memory → Nat → Byte
  | [], _ => Config.unwrittenByte
  | (b, v) :: m, a => if a = b then v else Memory.read m a

/-- Put a byte at an address, keeping the addresses rising; the byte an unlisted address reads as is not listed. -/
def Memory.write : Memory → Nat → Byte → Memory
  | [], a, v => if v = Config.unwrittenByte then [] else [(a, v)]
  | (b, u) :: m, a, v =>
    if a < b then (if v = Config.unwrittenByte then (b, u) :: m else (a, v) :: (b, u) :: m)
    else if a = b then (if v = Config.unwrittenByte then m else (a, v) :: m)
    else (b, u) :: Memory.write m a v

/-- The canonical form of P from an address on: rising addresses inside the space, no byte that an unlisted address reads
as. -/
def Memory.wfFrom : Nat → Memory → Bool
  | _, [] => true
  | low, (a, v) :: m => low ≤ a && a < Config.spaceSize && v != Config.unwrittenByte && Memory.wfFrom (a + 1) m

/-- The canonical form of P: 64 locations, 0x00 to 0x3F (R21). -/
def Memory.wf (m : Memory) : Bool := Memory.wfFrom 0 m

/-- `rsp <- (status, payload)`: exactly one response per command (R7, R50). -/
def respond (status : Status) (payload : BitVec 32) (s : State) : State :=
  { s with responses := ⟨status, payload⟩ :: s.responses }

/-- `raise <Kind>`, all that is left of taking an exception here: the response is (code of Kind, 0) and nothing else
happens; no state is saved, no mode changes, control goes nowhere (R7, R158). There is no return from it: the CORE is ready
for the next command at once (R159). -/
def raise (kind : Status) (s : State) : State := respond kind 0 s

/-- The calls of a finished transaction (R41): what `MemWrite` and `MemRead` make of the four-call contract. A read whose
address phase was not acknowledged requests no byte; a read that is delivered none takes none; further bytes are ignored
(D15, D17). -/
def Transfer.calls (p : Params) (x : Transfer) (status : Byte) (bytes : List Byte) : List BusCall :=
  match x with
  | .write addr value =>
    [.beginTransaction p.devAddr, .writeByte addr, .writeByte value, .endTransaction true]
  | .read addr =>
    [.beginTransaction p.devAddr, .writeByte addr, .endTransaction false] ++
      if status = 0 then .requestBytes p.devAddr 1 true :: (if bytes.isEmpty then [] else [.readByte]) else []

/-- What `MemRead` returns (R41): none when the address phase is not acknowledged or no byte is delivered, else the first
byte. -/
def memReadResult (status : Byte) (bytes : List Byte) : Option Byte :=
  if status ≠ 0 then none else bytes.head?

/-- The answer of the transport to the transaction, and the environment after it. The unconstrained transport answers what
is lined up and then what is free, under no law, and its peripheral is not in the model (R42, U12; log entries 3, 4, 18).
The reference transport is the array P; its failing variant acknowledges nothing and changes nothing (R49). -/
def transact (x : Transfer) (s : State) : Answer × State :=
  match s.transport with
  | .reference =>
    match x with
    | .read addr => (.reply 0 [Memory.read s.mem addr.toNat], s)
    | .write addr value => (.reply 0 [], { s with mem := Memory.write s.mem addr.toNat value })
  | .failing => (.reply 1 [], s)
  | .unconstrained =>
    match s.answers with
    | a :: rest => (a, { s with answers := rest })
    | [] => (Config.freeAnswer s.draws, { s with draws := s.draws + 1 })

/-- The transaction ends with the transport's answer and the response follows (R133 to R136). The transport's status is not
passed on, and nothing is retried (R136, R137). -/
def finish (x : Transfer) (status : Byte) (bytes : List Byte) (s : State) : State :=
  let done := { s with inFlight := none, busLog := x.calls s.params status bytes :: s.busLog }
  match x with
  | .write _ _ => if status = 0 then respond .ok 0 done else raise .transportFailure done
  | .read _ =>
    match memReadResult status bytes with
    | none => raise .transportFailure done
    | some b => respond .ok (payloadByte b) done

/-- Issue the transaction, or, when it is already in progress, wait on for its answer: an answer ends it; with none yet the
CORE waits, with no response (R22, R43 item 2, R186, U8; log entry 2). -/
def access (x : Transfer) (s : State) : State :=
  match transact x s with
  | (.pending, s') => { s' with inFlight := some x }
  | (.reply status bytes, s') => finish x status bytes s'

/-- The CORE is reset while idle (R170, R171): nothing is in progress after it; the peripheral, the parameters and the
host's own record are what they were. -/
def coreReset (s : State) : State := { s with inFlight := none }

/-- Someone other than the CORE changes one byte of P (R21, R48). P has no location above 0x3F (R30). -/
def externalChange (address value : Byte) (s : State) : Host.Outcome State Fault Refusal :=
  if address.toNat < Config.spaceSize then
    .next { s with mem := Memory.write s.mem address.toNat value }
  else .fault (.noSuchRegister address)

end Sys2Proof.Machine
end

