-- ==== Sys2Proof/Machine/Bcd.lean ====
section
/-!
DEFINITION. The BCD codec: ENCBCD and DECBCD (40_bcd.md).
-/

namespace Sys2Proof.Machine

/-- `encodeBcd(value)`: `(tens << 4) | ones` on an 8-bit result (R70). From 100 on the bits of tens above bit 3 are lost
(R71; log entry 9). -/
def encodeBcd (value : Nat) : Byte := BitVec.ofNat 8 (((value / 10) <<< 4) ||| (value % 10))

/-- `decodeBcd(byte, tm, om)`: the digits under the masks, `tens*10 + ones`, at most 165 (R72). Nothing is validated
(R74). -/
def decodeBcd (byte : Byte) (tm om : BitVec 4) : Byte :=
  BitVec.ofNat 8 ((byte.extractLsb' 4 4 &&& tm).toNat * 10 + (byte.extractLsb' 0 4 &&& om).toNat)

/-- ENCBCD (R70, R71): the operand is not checked and the violation of the precondition not signalled. -/
def execEncbcd (value : Byte) (s : State) : Host.Outcome State Fault Refusal :=
  .next (respond .ok (payloadByte (encodeBcd (unsigned value))) s)

/-- DECBCD (R72, R74). -/
def execDecbcd (byte : Byte) (tm om : BitVec 4) (s : State) : Host.Outcome State Fault Refusal :=
  .next (respond .ok (payloadByte (decodeBcd byte tm om)) s)

end Sys2Proof.Machine
end

