-- ==== Sys2Proof/Machine/Clamp.lean ====
section
/-!
DEFINITION. The bounds clamp: CLAMP (41_clamp.md).
-/

namespace Sys2Proof.Machine

/-- `clamp(v, lo, hi)` over the integers (R80); its domain is `lo ≤ hi` (R82). -/
def clamp (v lo hi : Int) : Int := if v < lo then lo else if v > hi then hi else v

/-- The clamp of an 8-bit time or date field, which enters as 0 to 255, to constant bounds (R81, R84). -/
def clampField (field : Byte) (lo hi : Nat) : Nat := (clamp (unsigned field) lo hi).toNat

/-- CLAMP (R80). An empty range is refused with OPERAND_FAULT (R82); saturation is not signalled (R83). -/
def execClamp (value lo hi : BitVec 16) (s : State) : Host.Outcome State Fault Refusal :=
  .next
    (if signed lo > signed hi then raise .operandFault s
     else respond .ok (payloadHalf (BitVec.ofInt 16 (clamp (signed value) (signed lo) (signed hi)))) s)

end Sys2Proof.Machine
end

