-- ==== Sys2Proof/Machine/Date.lean ====
section
/-!
DEFINITION. The date register codec: DATEENC and DATEDEC (43_date.md).
-/

namespace Sys2Proof.Machine

/-- The fallback ordinal `DOW_FALLBACK`, in 1..7 (R5, R116). -/
def fallbackOrdinal (p : Params) : Byte := BitVec.ofNat 8 (p.dowFallback.val + 1)

/-- The day-of-week byte: the clamped ordinal as one BCD digit (R111). -/
def dowByte (d : DateValue) : Byte := encodeBcd (clampField d.dayOfWeek 1 7)

/-- The day-of-month byte (R112). -/
def domByte (d : DateValue) : Byte := encodeBcd (clampField d.dayOfMonth 1 31)

/-- The month byte (R113). -/
def monthByte (d : DateValue) : Byte := encodeBcd (clampField d.month 1 12)

/-- The year byte (R114). -/
def yearByte (d : DateValue) : Byte := encodeBcd (clampField d.year 0 99)

/-- The ordinal of a day-of-week byte: the whole byte is tested, and anything but 0x01 to 0x07 gives the fallback
(R116, C3). -/
def decodeDow (p : Params) (b0 : Byte) : Byte :=
  if 1 ≤ b0.toNat ∧ b0.toNat ≤ 7 then b0 else fallbackOrdinal p

/-- The DateValue of the four register bytes (R115 to R119). Only the day-of-week is ever replaced (R48, R153). -/
def decodeDate (p : Params) (b0 b1 b2 b3 : Byte) : DateValue where
  dayOfWeek := decodeDow p b0
  dayOfMonth := decodeBcd b1 0x3 0xF
  month := decodeBcd b2 0x1 0xF
  year := decodeBcd b3 0xF 0xF

/-- DATEENC (R110). The fields do not influence one another: no calendar validation (R120). -/
def execDateenc (dayOfWeek dayOfMonth month year : Byte) (s : State) : Host.Outcome State Fault Refusal :=
  let d : DateValue := ⟨dayOfWeek, dayOfMonth, month, year⟩
  .next (respond .ok (payloadBytes4 (dowByte d) (domByte d) (monthByte d) (yearByte d)) s)

/-- DATEDEC (R115). The fallback is silent (R153). -/
def execDatedec (b0 b1 b2 b3 : Byte) (s : State) : Host.Outcome State Fault Refusal :=
  .next (respond .ok (payloadDate (decodeDate s.params b0 b1 b2 b3)) s)

end Sys2Proof.Machine
end

