-- ==== Sys2Proof/Machine/Ram.lean ====
section
/-!
DEFINITION. The RAM address mapper: MAPOFF, RAMRD and RAMWR (44_ram.md).
-/

namespace Sys2Proof.Machine

/-- `mapOffset(requested)`: `WINDOW_START + (offset mod WINDOW_SIZE)`, 0x08 to 0x3F, computed fresh on every access
(R18, R130, R132). -/
def mapOffset (offset : BitVec 16) : Byte :=
  BitVec.ofNat 8 (Config.windowStart + unsigned offset % Config.windowSize)

/-- MAPOFF (R130): no transport transaction. -/
def execMapoff (offset : BitVec 16) (s : State) : Host.Outcome State Fault Refusal :=
  .next (respond .ok (payloadByte (mapOffset offset)) s)

/-- RAMRD (R133, R134): one transport read at the mapped address. -/
def execRamrd (offset : BitVec 16) (s : State) : Host.Outcome State Fault Refusal :=
  .next (access (.read (mapOffset offset)) s)

/-- RAMWR (R135, R136): one transport write at the mapped address. -/
def execRamwr (offset : BitVec 16) (value : Byte) (s : State) : Host.Outcome State Fault Refusal :=
  .next (access (.write (mapOffset offset) value) s)

end Sys2Proof.Machine
end

