-- ==== Sys2Proof/Machine/Time.lean ====
section
/-!
DEFINITION. The time register codec: TIMEENC and TIMEDEC (42_time.md).
-/

namespace Sys2Proof.Machine

/-- Byte 0, the seconds register: the flag in bit 7 over the BCD of the clamped second (R91). -/
def secondsByte (t : TimeValue) : Byte :=
  ((BitVec.ofBool t.oscillatorDisabled).setWidth 8 <<< 7) ||| encodeBcd (clampField t.second 0 59)

/-- Byte 1, the minutes register, bit 7 zero (R92). -/
def minutesByte (t : TimeValue) : Byte := encodeBcd (clampField t.minute 0 59)

/-- Byte 2, the hours register: bit 6 the mode; in 12-hour mode bit 5 is PM and the tens digit is bit 4 alone (R93); in
24-hour mode the meridian is not consulted (R94, R95). Bit 7 is zero in both (D11). -/
def hoursByte (t : TimeValue) : Byte :=
  if t.is12HourMode then
    (1#8 <<< 6) ||| ((BitVec.ofBool (t.meridian == .pm)).setWidth 8 <<< 5) ||| encodeBcd (clampField t.hour 1 12)
  else encodeBcd (clampField t.hour 0 23)

/-- The TimeValue of the three register bytes (R96 to R100). The mode is bit 6 of the hours byte and picks the hour's tens
mask (R103). Nothing is clamped or validated (R102). -/
def decodeTime (b0 b1 b2 : Byte) : TimeValue where
  second := decodeBcd b0 0x7 0xF
  minute := decodeBcd b1 0x7 0xF
  hour := if b2.getLsbD 6 then decodeBcd b2 0x1 0xF else decodeBcd b2 0x3 0xF
  oscillatorDisabled := b0.getLsbD 7
  is12HourMode := b2.getLsbD 6
  meridian := if b2.getLsbD 6 then (if b2.getLsbD 5 then .pm else .am) else .notApplicable

/-- TIMEENC (R90). A term whose meridian field spells no value is an illegal command (R57 item 4); the decoder gives no
such term (log entry 15). -/
def execTimeenc (second minute hour : Byte) (oscillatorDisabled is12HourMode : Bool) (meridian : BitVec 2) (s : State) :
    Host.Outcome State Fault Refusal :=
  .next
    (match Meridian.ofCode? meridian with
     | none => raise .illegalCommand s
     | some m =>
       let t : TimeValue := ⟨second, minute, hour, oscillatorDisabled, is12HourMode, m⟩
       respond .ok (payloadBytes3 (secondsByte t) (minutesByte t) (hoursByte t)) s)

/-- TIMEDEC (R96). -/
def execTimedec (b0 b1 b2 : Byte) (s : State) : Host.Outcome State Fault Refusal :=
  .next (respond .ok (payloadTime (decodeTime b0 b1 b2)) s)

end Sys2Proof.Machine
end

