-- ==== Sys2Proof/Machine/Dispatch.lean ====
section
/-! DEFINITION. One arm per operation of the opcode table, each one call of the operation's meaning. -/

namespace Sys2Proof.Machine

def exec (i : Instr) (s : State) : Host.Outcome State Fault Refusal :=
  match i with
  | .encbcd value => Sys2Proof.Machine.execEncbcd value s
  | .decbcd byte tm om => Sys2Proof.Machine.execDecbcd byte tm om s
  | .clamp value lo hi => Sys2Proof.Machine.execClamp value lo hi s
  | .timeenc second minute hour osc mode meridian => Sys2Proof.Machine.execTimeenc second minute hour osc mode meridian s
  | .timedec a b c => Sys2Proof.Machine.execTimedec a b c s
  | .dateenc dow dom month year => Sys2Proof.Machine.execDateenc dow dom month year s
  | .datedec a b c d => Sys2Proof.Machine.execDatedec a b c d s
  | .mapoff offset => Sys2Proof.Machine.execMapoff offset s
  | .ramrd offset => Sys2Proof.Machine.execRamrd offset s
  | .ramwr offset value => Sys2Proof.Machine.execRamwr offset value s

end Sys2Proof.Machine
end

