-- ==== Sys2Proof/Machine/Command.lean ====
section
/-!
DEFINITION. Running a command word that stands at the port: decode first, then execute (60_exceptions.md R157).
-/

namespace Sys2Proof.Machine

/-- Decode the word; an illegal word gives ILLEGAL_COMMAND and nothing else is examined (R57, R157), a legal one is
executed by its own rule. -/
def runCommand (w : CommandWord) (s : State) : Host.Outcome State Fault Refusal :=
  match decode w with
  | .error _ => .next (raise .illegalCommand s)
  | .ok i => exec i s

/-- The word that stands for the bits `w` at the command port. A number that needs more than 64 bits is no command (R50);
the all-zero word, which is illegal (R57), stands in for it (log entry 20). -/
def fetchWord (nbits w : Nat) : CommandWord := (tableWord? nbits w).getD 0

end Sys2Proof.Machine
end

