-- ==== Sys2Proof/Machine/Step.lean ====
section
/-!
DEFINITION. One step of the hardware (10_state.md R12; 20_memory.md R43): while a transaction is in progress, wait for the
transport; else take the oldest input at the ports; else stay idle (70_reset_and_hazards.md R170).
-/

namespace Sys2Proof.Machine

/-- One step. Nothing new is taken while a transaction is in progress: commands never overlap (R43, R178), other bus users
act only between commands (R44), and a reset falls only between commands (R171, U7). A transport that never answers keeps
the CORE waiting for ever (U8; log entry 2). -/
def step (s : State) : Host.Outcome State Fault Refusal :=
  match s.inFlight with
  | some x => .next (access x s)
  | none =>
    match s.inputs with
    | [] => .next s
    | .command w :: rest => runCommand w { s with inputs := rest }
    | .external address value :: rest => externalChange address value { s with inputs := rest }
    | .reset :: rest => .next (coreReset { s with inputs := rest })

/-- The command whose bits are `w` presented at the port of the idle CORE, ahead of anything else that waits there, so that
the next step runs exactly it (log entry 16). -/
def State.withFetchWord (s : State) (nbits w : Nat) : State :=
  { s with inFlight := none, inputs := .command (fetchWord nbits w) :: s.inputs }

end Sys2Proof.Machine
end

