-- ==== Sys2Proof/Machine/Assembler.lean ====
section
/-!
DEFINITION. The assembler syntax and the pseudo-instructions (30_encoding.md R58, R59), a line as a list of characters. Each
line spells one command. Log entry 22 names what R58 leaves open about blanks and letters.
-/

namespace Sys2Proof.Machine

/-- The mask sets of the `DECBCD.*` pseudo-instructions (R59, R73). -/
inductive MaskName where
  | full | sec | min | h12 | h24 | dom | mon | year
  deriving DecidableEq, Repr

/-- The tens mask; the ones mask is 0xF in every case (R73). -/
def MaskName.tens : MaskName → BitVec 4
  | .full => 0xF
  | .sec => 0x7
  | .min => 0x7
  | .h12 => 0x1
  | .h24 => 0x3
  | .dom => 0x3
  | .mon => 0x1
  | .year => 0xF

/-- The ranges of the `CLAMP.*` pseudo-instructions (R59, R84). -/
inductive RangeName where
  | sec | min | h12 | h24 | dow | dom | mon | year
  deriving DecidableEq, Repr

/-- The bounds `lo`, `hi` (R59, R84). -/
def RangeName.bounds : RangeName → BitVec 16 × BitVec 16
  | .sec => (0, 59)
  | .min => (0, 59)
  | .h12 => (1, 12)
  | .h24 => (0, 23)
  | .dow => (1, 7)
  | .dom => (1, 31)
  | .mon => (1, 12)
  | .year => (0, 99)

/-- A pseudo-instruction (R59). -/
inductive Pseudo where
  | decbcd (masks : MaskName) (byte : Byte)
  | clamp (range : RangeName) (value : BitVec 16)
  deriving DecidableEq, Repr

/-- Each expands to exactly one command (R59). -/
def Pseudo.expand : Pseudo → Instr
  | .decbcd masks byte => .decbcd byte masks.tens 0xF
  | .clamp range value => .clamp value range.bounds.1 range.bounds.2

/-- What a mnemonic names. -/
inductive Mnemonic where
  | op (o : Op)
  | decbcdOf (masks : MaskName)
  | clampOf (range : RangeName)
  deriving DecidableEq, Repr

/-- The mnemonics of R58 and R59. -/
def mnemonics : List (List Char × Mnemonic) :=
  [ (['E', 'N', 'C', 'B', 'C', 'D'], .op .encbcd), (['D', 'E', 'C', 'B', 'C', 'D'], .op .decbcd),
    (['C', 'L', 'A', 'M', 'P'], .op .clamp), (['T', 'I', 'M', 'E', 'E', 'N', 'C'], .op .timeenc),
    (['T', 'I', 'M', 'E', 'D', 'E', 'C'], .op .timedec), (['D', 'A', 'T', 'E', 'E', 'N', 'C'], .op .dateenc),
    (['D', 'A', 'T', 'E', 'D', 'E', 'C'], .op .datedec), (['M', 'A', 'P', 'O', 'F', 'F'], .op .mapoff),
    (['R', 'A', 'M', 'R', 'D'], .op .ramrd), (['R', 'A', 'M', 'W', 'R'], .op .ramwr) ]

/-- The suffixes after `DECBCD.` (R59). -/
def maskSuffixes : List (List Char × MaskName) :=
  [ (['F', 'U', 'L', 'L'], .full), (['S', 'E', 'C'], .sec), (['M', 'I', 'N'], .min), (['H', '1', '2'], .h12),
    (['H', '2', '4'], .h24), (['D', 'O', 'M'], .dom), (['M', 'O', 'N'], .mon), (['Y', 'E', 'A', 'R'], .year) ]

/-- The suffixes after `CLAMP.` (R59). -/
def rangeSuffixes : List (List Char × RangeName) :=
  [ (['S', 'E', 'C'], .sec), (['M', 'I', 'N'], .min), (['H', '1', '2'], .h12), (['H', '2', '4'], .h24),
    (['D', 'O', 'W'], .dow), (['D', 'O', 'M'], .dom), (['M', 'O', 'N'], .mon), (['Y', 'E', 'A', 'R'], .year) ]

/-- Look a mnemonic up. -/
def mnemonic? (cs : List Char) : Option Mnemonic :=
  match cs with
  | 'D' :: 'E' :: 'C' :: 'B' :: 'C' :: 'D' :: '.' :: suffix => (maskSuffixes.lookup suffix).map .decbcdOf
  | 'C' :: 'L' :: 'A' :: 'M' :: 'P' :: '.' :: suffix => (rangeSuffixes.lookup suffix).map .clampOf
  | _ => mnemonics.lookup cs

/-- A blank between the parts of a line. -/
def isBlank (c : Char) : Bool := c == ' ' || c == '\t'

/-- A text without the blanks around it. -/
def trim (cs : List Char) : List Char := ((cs.dropWhile isBlank).reverse.dropWhile isBlank).reverse

/-- The texts between the commas. -/
def splitCommas : List Char → List (List Char)
  | [] => [[]]
  | c :: cs =>
    if c = ',' then [] :: splitCommas cs
    else
      match splitCommas cs with
      | [] => [[c]]
      | t :: ts => (c :: t) :: ts

/-- The value of a digit in a base, for bases up to sixteen. -/
def digit? (base : Nat) (c : Char) : Option Nat :=
  let n := c.toNat
  let v := if 48 ≤ n ∧ n ≤ 57 then n - 48 else if 65 ≤ n ∧ n ≤ 70 then n - 55 else if 97 ≤ n ∧ n ≤ 102 then n - 87 else 16
  if v < base then some v else none

/-- The value of a run of digits after `acc`. -/
def digits? (base acc : Nat) : List Char → Option Nat
  | [] => some acc
  | c :: cs =>
    match digit? base c with
    | none => none
    | some d => digits? base (acc * base + d) cs

/-- A number: decimal, hexadecimal after `0x`, binary after `0b` (R58). -/
def number? : List Char → Option Nat
  | [] => none
  | '0' :: 'x' :: c :: cs => digits? 16 0 (c :: cs)
  | '0' :: 'b' :: c :: cs => digits? 2 0 (c :: cs)
  | c :: cs => digits? 10 0 (c :: cs)

/-- An operand of `n` bits, 0 to `2^n - 1`; a number outside is an assembly error (R58). -/
def field? (n : Nat) (cs : List Char) : Option (BitVec n) :=
  match number? cs with
  | none => none
  | some v => if v < 2 ^ n then some (BitVec.ofNat n v) else none

/-- A CLAMP operand, -32768 to 32767; only there a leading `-` is allowed (R58). -/
def signedField? (cs : List Char) : Option (BitVec 16) :=
  match cs with
  | '-' :: rest =>
    match number? rest with
    | none => none
    | some v => if v ≤ 32768 then some (BitVec.ofInt 16 (-(v : Int))) else none
  | _ =>
    match number? cs with
    | none => none
    | some v => if v ≤ 32767 then some (BitVec.ofNat 16 v) else none

/-- The `ch` operand, `0` or `1` (R58). -/
def flag? : List Char → Option Bool
  | ['0'] => some false
  | ['1'] => some true
  | _ => none

/-- The `mode` operand: `H24` is is12HourMode = 0, `H12` is 1 (R58). -/
def mode? : List Char → Option Bool
  | ['H', '2', '4'] => some false
  | ['H', '1', '2'] => some true
  | _ => none

/-- The `meridian` operand (R58, R19). -/
def meridian? : List Char → Option (BitVec 2)
  | ['N', 'A'] => some 0b00
  | ['A', 'M'] => some 0b01
  | ['P', 'M'] => some 0b10
  | _ => none

/-- The command of a mnemonic and its operands, in the order of R58; none where the operands do not fit. -/
def assembleOperands (m : Mnemonic) (ops : List (List Char)) : Option Instr :=
  match m, ops with
  | .op .encbcd, [value] => do
    let value ← field? 8 value
    some (.encbcd value)
  | .op .decbcd, [byte, tm, om] => do
    let byte ← field? 8 byte
    let tm ← field? 4 tm
    let om ← field? 4 om
    some (.decbcd byte tm om)
  | .op .clamp, [value, lo, hi] => do
    let value ← signedField? value
    let lo ← signedField? lo
    let hi ← signedField? hi
    some (.clamp value lo hi)
  | .op .timeenc, [second, minute, hour, ch, mode, meridian] => do
    let second ← field? 8 second
    let minute ← field? 8 minute
    let hour ← field? 8 hour
    let ch ← flag? ch
    let mode ← mode? mode
    let meridian ← meridian? meridian
    some (.timeenc second minute hour ch mode meridian)
  | .op .timedec, [b0, b1, b2] => do
    let b0 ← field? 8 b0
    let b1 ← field? 8 b1
    let b2 ← field? 8 b2
    some (.timedec b0 b1 b2)
  | .op .dateenc, [dow, dom, month, year] => do
    let dow ← field? 8 dow
    let dom ← field? 8 dom
    let month ← field? 8 month
    let year ← field? 8 year
    some (.dateenc dow dom month year)
  | .op .datedec, [b0, b1, b2, b3] => do
    let b0 ← field? 8 b0
    let b1 ← field? 8 b1
    let b2 ← field? 8 b2
    let b3 ← field? 8 b3
    some (.datedec b0 b1 b2 b3)
  | .op .mapoff, [offset] => do
    let offset ← field? 16 offset
    some (.mapoff offset)
  | .op .ramrd, [offset] => do
    let offset ← field? 16 offset
    some (.ramrd offset)
  | .op .ramwr, [offset, value] => do
    let offset ← field? 16 offset
    let value ← field? 8 value
    some (.ramwr offset value)
  | .decbcdOf masks, [byte] => do
    let byte ← field? 8 byte
    some (Pseudo.decbcd masks byte).expand
  | .clampOf range, [value] => do
    let value ← signedField? value
    some (Pseudo.clamp range value).expand
  | _, _ => none

/-- Why a line gives no command. -/
inductive AsmError where
  /-- Nothing stands before the comment. -/
  | noCommand
  /-- The first word is no mnemonic of R58 or R59. -/
  | unknownMnemonic
  /-- Too few or too many operands, or one that is no number or name, or is outside its range (R58). -/
  | badOperand
  deriving DecidableEq, Repr

/-- One line: `MNEMONIC operand, operand, ...`, a `;` starts a comment (R58). -/
def assemble (line : List Char) : Except AsmError Instr :=
  let text := trim (line.takeWhile (· != ';'))
  let word := text.takeWhile (!isBlank ·)
  let rest := trim (text.dropWhile (!isBlank ·))
  if text.isEmpty then .error .noCommand
  else
    match mnemonic? word with
    | none => .error .unknownMnemonic
    | some m =>
      match assembleOperands m (if rest.isEmpty then [] else (splitCommas rest).map trim) with
      | none => .error .badOperand
      | some i => .ok i

end Sys2Proof.Machine
end

