-- ==== Sys2Proof/Machine/HostPort.lean ====
section
/-!
DEFINITION. The host's side of the time and date registers (70_reset_and_hazards.md R175; 20_memory.md R31, R36): the CORE
only converts, the host moves the bytes. Its writes to registers 0x00 to 0x06 reach the machine as changes of P between
commands; its reads become the operands of the command it issues next (log entry 23).
-/

namespace Sys2Proof.Machine

/-- Byte `i` of a bundle: bits `8*i+7 : 8*i` of the payload (R36). -/
def payloadLane (p : BitVec 32) (i : Nat) : Byte := p.extractLsb' (8 * i) 8

/-- The host writes bytes 0, 1, 2 of a TIMEENC payload to addresses 0x00, 0x01, 0x02 (R175). -/
def storeTime (p : BitVec 32) : List Input :=
  [ .external Config.addrSeconds (payloadLane p 0),
    .external Config.addrMinutes (payloadLane p 1),
    .external Config.addrHours (payloadLane p 2) ]

/-- The host writes bytes 0 to 3 of a DATEENC payload to addresses 0x03 to 0x06, "in order day-of-week, day-of-month, month,
year" (R175). -/
def storeDate (p : BitVec 32) : List Input :=
  [ .external Config.addrDow (payloadLane p 0),
    .external Config.addrDom (payloadLane p 1),
    .external Config.addrMonth (payloadLane p 2),
    .external Config.addrYear (payloadLane p 3) ]

/-- The command the host issues after reading the three time registers, the bytes in the same order (R175). DESIGN CHOICE:
the three bytes are of one instant, one memory; whether separately transported bytes belong to one instant the spec leaves
open (R182, N10; log entry 23). -/
def loadTime (m : Memory) : Instr :=
  .timedec (m.read Config.addrSeconds.toNat) (m.read Config.addrMinutes.toNat) (m.read Config.addrHours.toNat)

/-- The command the host issues after reading the four date registers (R175). DESIGN CHOICE: the four bytes are of one
instant, one memory, which the spec leaves open (R182, N10; log entry 23). -/
def loadDate (m : Memory) : Instr :=
  .datedec (m.read Config.addrDow.toNat) (m.read Config.addrDom.toNat) (m.read Config.addrMonth.toNat)
    (m.read Config.addrYear.toNat)

end Sys2Proof.Machine
end

