-- ==== Sys2Proof/Safety.lean ====
section
/-!
DEFINITION. What holds of a safe state: the register space keeps its canonical form, no transaction of the CORE, in progress
or finished, is outside the storage window (44_ram.md R131), and a response that is not OK carries no value
(30_encoding.md R55).
-/

namespace Sys2Proof.Machine

/-- The address of a transfer. -/
def Transfer.addr : Transfer → Byte
  | .read a => a
  | .write a _ => a

/-- The closed address range `[WINDOW_START, WINDOW_END]` (R32). -/
def inWindow (a : Byte) : Prop := Config.windowStart ≤ a.toNat ∧ a.toNat ≤ Config.windowEnd

/-- The register address of a transaction: the first byte written in it (R41). -/
def callsAddress? : List BusCall → Option Byte
  | .beginTransaction _ :: .writeByte a :: _ => some a
  | _ => none

/-- A safe state. -/
structure State.Safe (s : State) : Prop where
  /-- P keeps its canonical form, 64 locations (R21). -/
  mem : s.mem.wf = true
  /-- The transaction in progress is in the window (R131). -/
  inFlight : ∀ x, s.inFlight = some x → inWindow x.addr
  /-- Every finished transaction was in the window (R131). -/
  busLog : ∀ calls ∈ s.busLog, ∃ a, callsAddress? calls = some a ∧ inWindow a
  /-- A response whose status is not OK has a zero payload (R55, R158). -/
  responses : ∀ r ∈ s.responses, r.status ≠ .ok → r.payload = 0

/-- An input the hardware has a meaning for: a change of P is at one of its 64 locations (R21, R30). -/
def Input.legal : Input → Bool
  | .command _ => true
  | .external a _ => a.toNat < Config.spaceSize
  | .reset => true

/-- A word is illegal by the four conditions of R57, in the spec's own field positions (R50, R52): `op`, bits 63:60, is 0x0
or 0xB to 0xF; `rsv`, bits 59:48, is not zero; a bit of `arg` at or above the first unused bit of the operation's format is
not zero (CLAMP uses all 48); TIMEENC with bits 27:26 both set. -/
def illegalByR57 (w : CommandWord) : Prop :=
  ((w.extractLsb' 60 4).toNat = 0x0 ∨ 0xB ≤ (w.extractLsb' 60 4).toNat) ∨
  w.extractLsb' 48 12 ≠ 0 ∨
  (∃ p ∈ [(0x1, 8), (0x2, 16), (0x4, 28), (0x5, 24), (0x6, 32), (0x7, 32), (0x8, 16), (0x9, 16), (0xA, 24)],
    (w.extractLsb' 60 4).toNat = p.1 ∧ w.toNat % 2 ^ 48 / 2 ^ p.2 ≠ 0) ∨
  ((w.extractLsb' 60 4).toNat = 0x4 ∧ w.extractLsb' 26 2 = 0b11#2)

end Sys2Proof.Machine
end

