-- ==== Sys2Proof/Certificates/Slice0/Obligations.lean ====
section
/-!
DEFINITION. The statements for the provers. A result statement gives the whole next state as a record update of the state
before, so it is the instruction's frame too: every field it does not name is unchanged.
-/

open Sys2Proof Sys2Proof.Machine

/-! ## Decoding -/

/-- R53: a word selects an operation exactly when it meets the row's match and mask (TIMEENC with its one further condition),
and no word selects two. The table is written out again here from R53. -/
def Obligations.DecoderSelectsByMatchAndMask : Prop :=
  ∀ w : CommandWord,
    (∀ row ∈ ([⟨.encbcd, 0x1000000000000000, 0xFFFFFFFFFFFFFF00⟩, ⟨.decbcd, 0x2000000000000000, 0xFFFFFFFFFFFF0000⟩,
        ⟨.clamp, 0x3000000000000000, 0xFFFF000000000000⟩, ⟨.timeenc, 0x4000000000000000, 0xFFFFFFFFF0000000⟩,
        ⟨.timedec, 0x5000000000000000, 0xFFFFFFFFFF000000⟩, ⟨.dateenc, 0x6000000000000000, 0xFFFFFFFF00000000⟩,
        ⟨.datedec, 0x7000000000000000, 0xFFFFFFFF00000000⟩, ⟨.mapoff, 0x8000000000000000, 0xFFFFFFFFFFFF0000⟩,
        ⟨.ramrd, 0x9000000000000000, 0xFFFFFFFFFFFF0000⟩, ⟨.ramwr, 0xA000000000000000, 0xFFFFFFFFFF000000⟩] :
        List OpcodeRow),
      ((∃ i, decode w = .ok i ∧ i.op = row.op) ↔
        (w &&& row.mask = row.pattern ∧ (row.op = .timeenc → w.extractLsb' 26 2 ≠ 0b11#2)))) ∧
    ∀ r₁ ∈ opcodeTable, ∀ r₂ ∈ opcodeTable, w &&& r₁.mask = r₁.pattern → w &&& r₂.mask = r₂.pattern → r₁ = r₂

/-- No bit of an encoding is dropped: decoding an encoded well-formed instruction gives it back. -/
def Obligations.DecodeOfEncodeIsIdentity : Prop :=
  ∀ i : Instr, WellFormed i → decode (encode i) = .ok i

/-- Each legal word has one meaning and is the encoding of it, and what the decoder gives is well formed. -/
def Obligations.EncodeOfDecodeIsIdentity : Prop :=
  ∀ (w : CommandWord) (i : Instr), decode w = .ok i → encode i = w ∧ WellFormed i

/-- One word of each operation, its fields written out from R52 (`op`, `rsv`, unused bits, operands), decodes to the
instruction it stands for. -/
def Obligations.WordsWrittenFromTheTablesDecode : Prop :=
  decode (0x1#4 ++ 0x000#12 ++ 0x0000000000#40 ++ 0x3B#8) = .ok (.encbcd 59) ∧
  decode (0x2#4 ++ 0x000#12 ++ 0x00000000#32 ++ 0x7#4 ++ 0xF#4 ++ 0xD8#8) = .ok (.decbcd 0xD8 0x7 0xF) ∧
  decode (0x3#4 ++ 0x000#12 ++ 0x0005#16 ++ 0xFFFB#16 ++ 0xFF9C#16) = .ok (.clamp (-100) (-5) 5) ∧
  decode (0x4#4 ++ 0x000#12 ++ 0x00000#20 ++ 0b10#2 ++ 1#1 ++ 0#1 ++ 11#8 ++ 30#8 ++ 5#8)
    = .ok (.timeenc 5 30 11 false true 0b10) ∧
  decode (0x5#4 ++ 0x000#12 ++ 0x000000#24 ++ 0x20#8 ++ 0x37#8 ++ 0xD8#8) = .ok (.timedec 0xD8 0x37 0x20) ∧
  decode (0x6#4 ++ 0x000#12 ++ 0x0000#16 ++ 24#8 ++ 2#8 ++ 30#8 ++ 3#8) = .ok (.dateenc 3 30 2 24) ∧
  decode (0x7#4 ++ 0x000#12 ++ 0x0000#16 ++ 0x24#8 ++ 0x02#8 ++ 0x30#8 ++ 0x03#8) = .ok (.datedec 0x03 0x30 0x02 0x24) ∧
  decode (0x8#4 ++ 0x000#12 ++ 0x00000000#32 ++ 0x00C8#16) = .ok (.mapoff 200) ∧
  decode (0x9#4 ++ 0x000#12 ++ 0x00000000#32 ++ 0xFFFF#16) = .ok (.ramrd 65535) ∧
  decode (0xA#4 ++ 0x000#12 ++ 0x000000#24 ++ 0x5A#8 ++ 0x0038#16) = .ok (.ramwr 56 0x5A)

/-! ## The step -/

/-- A step of the idle CORE with a legal command at the port is `exec` of the decoded instruction, the command taken from
the port and nothing else added. -/
def Obligations.StepRunsTheDecodedCommand : Prop :=
  ∀ (s : State) (w : CommandWord) (rest : List Input) (i : Instr),
    s.inFlight = none → s.inputs = .command w :: rest → decode w = .ok i → step s = exec i { s with inputs := rest }

/-- R57: the decoder refuses a word exactly when one of the four conditions holds (the all-zero and the all-ones word among
them), and an illegal command gives ILLEGAL_COMMAND with a zero payload, issues no transaction and has no other effect. -/
def Obligations.IllegalWordsAnswerIllegalCommand : Prop :=
  (∀ w : CommandWord, (∃ e, decode w = .error e) ↔ illegalByR57 w) ∧
  illegalByR57 0 ∧ illegalByR57 (BitVec.allOnes 64) ∧
  ∀ (s : State) (w : CommandWord) (rest : List Input),
    s.inFlight = none → s.inputs = .command w :: rest → illegalByR57 w →
      step s = .next { s with inputs := rest, responses := ⟨.illegalCommand, 0⟩ :: s.responses }

/-- R170: after reset the CORE is idle, it does nothing until the host issues a command, and the first command is executed
exactly like any other. -/
def Obligations.ResetIsIdleAndReady : Prop :=
  State.reset.inFlight = none ∧ State.reset.inputs = [] ∧
    (∀ s : State, s.inFlight = none → s.inputs = [] → step s = .next s) ∧
    ∀ (w : CommandWord) (i : Instr), decode w = .ok i →
      step { State.reset with inputs := [.command w] } = exec i State.reset

/-- A reset of the idle CORE issues no transaction and changes no byte of P and no parameter (R171); it changes nothing at
all but that it is taken from the port. That the later inputs, the transport and the records survive it as well is the
model's choice, log entry 14. -/
def Obligations.CoreResetTouchesNothing : Prop :=
  ∀ (s : State) (rest : List Input), s.inFlight = none → s.inputs = .reset :: rest → step s = .next { s with inputs := rest }

/-- An out-of-band change sets the one byte of P and leaves the rest; above 0x3F there is no location and the run stops
(R21, R30; log entries 11 and 12: the form of the change and the stop are the model's choice). -/
def Obligations.ExternalChangeSetsOneByte : Prop :=
  ∀ (s : State) (a v : Byte) (rest : List Input), s.inFlight = none → s.inputs = .external a v :: rest → s.mem.wf = true →
    (a.toNat ≤ 0x3F → ∃ m : Memory, step s = .next { s with inputs := rest, mem := m } ∧
      m.read a.toNat = v ∧ ∀ b : Nat, b ≠ a.toNat → m.read b = s.mem.read b) ∧
    (0x3F < a.toNat → step s = .fault (.noSuchRegister a))

/-- A step takes at most the oldest input and none while a transaction is in progress; it adds at most one response and at
most one finished transaction to what was there (R43). That what arrives during a transaction stays at the port is the
model's choice where the spec defines nothing or rules it out: log entry 19 for an early command (U9, R178), log entry 14 for
a reset (U7), log entry 11 for another bus user (R44). -/
def Obligations.CommandsRunOneAtATimeInOrder : Prop :=
  ∀ s t : State, step s = .next t →
    (t.inputs = s.inputs ∨ ∃ x, s.inputs = x :: t.inputs) ∧
    (s.inFlight ≠ none → t.inputs = s.inputs) ∧
    (t.responses = s.responses ∨ ∃ r, t.responses = r :: s.responses) ∧
    (t.busLog = s.busLog ∨ ∃ calls, t.busLog = calls :: s.busLog)

/-- R50: every command produces exactly one response. Either the step that takes the command produces it and the CORE is
idle again, or the command is a RAMRD or RAMWR whose transaction is then in progress; and while it is, a step produces the
one response and ends the transaction, or does neither. -/
def Obligations.ExactlyOneResponsePerCommand : Prop :=
  (∀ (s t : State) (w : CommandWord) (rest : List Input),
    s.inFlight = none → s.inputs = .command w :: rest → step s = .next t →
      t.inputs = rest ∧
      ((t.inFlight = none ∧ ∃ r, t.responses = r :: s.responses) ∨
       (t.inFlight ≠ none ∧ t.responses = s.responses ∧
         ∃ i, decode w = .ok i ∧ (i.op = .ramrd ∨ i.op = .ramwr)))) ∧
  (∀ (s t : State) (x : Transfer), s.inFlight = some x → step s = .next t →
      (t.inFlight = none ∧ ∃ r, t.responses = r :: s.responses) ∨ (t.inFlight = some x ∧ t.responses = s.responses))

/-- No step is refused, and the only fault is an out-of-band change aimed above 0x3F (R150, R160: no failure of a command is
fatal; log entry 12). -/
def Obligations.OnlyAnExternalChangeOutsideTheSpaceStops : Prop :=
  ∀ s : State, (∃ t, step s = .next t) ∨
    (∃ a v rest, s.inFlight = none ∧ s.inputs = .external a v :: rest ∧ 0x3F < a.toNat ∧
      step s = .fault (.noSuchRegister a))

/-- R172: no command and no reset changes a parameter. -/
def Obligations.ParametersAreNeverChanged : Prop :=
  ∀ s t : State, step s = .next t → t.params = s.params

/-- Every step keeps the invariant of Safety.lean: P in canonical form, every transaction in the window, no value in a
response that is not OK. -/
def Obligations.StepKeepsSafe : Prop :=
  ∀ s t : State, s.Safe → step s = .next t → t.Safe

/-- The invariant holds after reset. -/
def Obligations.ResetIsSafe : Prop := State.reset.Safe

/-- R131: no step of the CORE changes the time registers, the date registers, address 0x07 or anything above 0x3F; only a
change from outside does, and none is taken while a transaction is in progress, whatever waits at the port. -/
def Obligations.CoreNeverWritesOutsideTheWindow : Prop :=
  ∀ s t : State, s.Safe → (s.inFlight = none → ∀ a v rest, s.inputs ≠ .external a v :: rest) → step s = .next t →
    ∀ a : Nat, a ≤ 0x07 ∨ 0x3F < a → t.mem.read a = s.mem.read a

/-! ## Every command -/

/-- R160, and the frame that all ten operations share: every instruction answers a next state, with the parameters, the port,
the attached transport and the byte-wise content of P outside the window as they were. -/
def Obligations.EveryCommandAnswersANextState : Prop :=
  ∀ (i : Instr) (s : State), s.mem.wf = true → ∃ t, exec i s = .next t ∧ t.params = s.params ∧ t.inputs = s.inputs ∧
    t.transport = s.transport ∧ ∀ a : Nat, a < 0x08 ∨ 0x3F < a → t.mem.read a = s.mem.read a

/-- R10: no state survives a command. Of two states with the same DOW_FALLBACK, the same command adds the same responses,
whatever ran before. For a RAMRD or RAMWR the transport is to give its transaction the same answer, and then the two also
wait, or do not wait, alike. -/
def Obligations.ResponsesDoNotDependOnHistory : Prop :=
  ∀ (i : Instr) (s s' t t' : State), exec i s = .next t → exec i s' = .next t' →
    s.params.dowFallback = s'.params.dowFallback →
    (∀ offset, i = .ramrd offset →
      (transact (.read (mapOffset offset)) s).1 = (transact (.read (mapOffset offset)) s').1) →
    (∀ offset v, i = .ramwr offset v →
      (transact (.write (mapOffset offset) v) s).1 = (transact (.write (mapOffset offset) v) s').1) →
    ∃ new : List Response, t.responses = new ++ s.responses ∧ t'.responses = new ++ s'.responses ∧
      ((i.op = .ramrd ∨ i.op = .ramwr) → t.inFlight = t'.inFlight)

/-- R155: the statuses each operation can return, and that everything else is impossible; and the same two of a RAMRD or
RAMWR that waited (log entry 2), in the step with which its transaction ends. -/
def Obligations.StatusesOfEachOperation : Prop :=
  (∀ (o : Op) (st : Status),
    (∃ (i : Instr) (s t : State) (p : BitVec 32),
      i.op = o ∧ WellFormed i ∧ exec i s = .next t ∧ t.responses = ⟨st, p⟩ :: s.responses) ↔
    (st = .ok ∨ (st = .operandFault ∧ o = .clamp) ∨ (st = .transportFailure ∧ (o = .ramrd ∨ o = .ramwr)))) ∧
  ∀ (x : Transfer) (st : Status),
    (∃ (s t : State) (p : BitVec 32), s.inFlight = some x ∧ step s = .next t ∧ t.responses = ⟨st, p⟩ :: s.responses) ↔
    (st = .ok ∨ st = .transportFailure)

/-- R35: only RAMRD and RAMWR reach P or the transport. The other eight change nothing but that they add one response. -/
def Obligations.EightOperationsOnlyRespond : Prop :=
  ∀ (i : Instr) (s : State), i.op ≠ .ramrd → i.op ≠ .ramwr →
    ∃ r : Response, exec i s = .next { s with responses := r :: s.responses }

/-- R55, R56: the response word carries the status in bits 39:32 and the payload in bits 31:0, with the codes of R56. -/
def Obligations.ResponseWordLayout : Prop :=
  (∀ r : Response, r.word.extractLsb' 32 8 = r.status.code ∧ r.word.extractLsb' 0 32 = r.payload) ∧
  Status.ok.code = 0x00 ∧ Status.transportFailure.code = 0x01 ∧ Status.illegalCommand.code = 0x02 ∧
  Status.operandFault.code = 0x03

/-! ## BCD codec -/

/-- R70: ENCBCD packs the digits of a value up to 99, tens in bits 7:4 and ones in bits 3:0; nothing else changes. -/
def Obligations.EncbcdPacksTheDigits : Prop :=
  (∀ w : CommandWord, w &&& 0xFFFFFFFFFFFFFF00 = 0x1000000000000000 → decode w = .ok (.encbcd (w.extractLsb' 0 8))) ∧
  ∀ (value : Byte) (s : State), value.toNat ≤ 99 → ∃ b : Byte,
    exec (.encbcd value) s = .next { s with responses := ⟨.ok, b.setWidth 32⟩ :: s.responses } ∧
    (b.extractLsb' 4 4).toNat = value.toNat / 10 ∧ (b.extractLsb' 0 4).toNat = value.toNat % 10

/-- R71: from 100 on ENCBCD still answers OK and the bits of tens above bit 3 are lost. The byte is the spec's own decision
(D5, U1; log entry 9); nothing else here rests on it. -/
def Obligations.EncbcdFrom100LosesTensBits : Prop :=
  ∀ (value : Byte) (s : State), 100 ≤ value.toNat → ∃ b : Byte,
    exec (.encbcd value) s = .next { s with responses := ⟨.ok, b.setWidth 32⟩ :: s.responses } ∧
    (b.extractLsb' 4 4).toNat = value.toNat / 10 % 16 ∧ (b.extractLsb' 0 4).toNat = value.toNat % 10

/-- R72, R74: DECBCD gives `tens*10 + ones` of the masked nibbles, at most 165; nothing is validated. -/
def Obligations.DecbcdUnpacksMaskedDigits : Prop :=
  (∀ w : CommandWord, w &&& 0xFFFFFFFFFFFF0000 = 0x2000000000000000 →
    decode w = .ok (.decbcd (w.extractLsb' 0 8) (w.extractLsb' 12 4) (w.extractLsb' 8 4))) ∧
  ∀ (byte : Byte) (tm om : BitVec 4) (s : State), ∃ v : BitVec 32,
    exec (.decbcd byte tm om) s = .next { s with responses := ⟨.ok, v⟩ :: s.responses } ∧
    v.toNat = (byte.extractLsb' 4 4 &&& tm).toNat * 10 + (byte.extractLsb' 0 4 &&& om).toNat ∧ v.toNat ≤ 165

/-- R75: the three round trips of the BCD codec, as commands. A value up to 99 comes back through the full masks, and through
every narrow tens mask `2^k - 1` that holds its tens digit; a byte whose two nibbles are digits comes back. -/
def Obligations.BcdRoundTrips : Prop :=
  (∀ (value : Byte) (tm : BitVec 4) (k : Nat) (s u : State), value.toNat ≤ 99 → tm.toNat = 2 ^ k - 1 →
    value.toNat / 10 ≤ tm.toNat → ∃ b : Byte,
      exec (.encbcd value) s = .next { s with responses := ⟨.ok, b.setWidth 32⟩ :: s.responses } ∧
      exec (.decbcd b tm 0xF) u = .next { u with responses := ⟨.ok, value.setWidth 32⟩ :: u.responses }) ∧
  ∀ (b : Byte) (s u : State), (b.extractLsb' 4 4).toNat ≤ 9 → (b.extractLsb' 0 4).toNat ≤ 9 → ∃ v : Byte,
    exec (.decbcd b 0xF 0xF) s = .next { s with responses := ⟨.ok, v.setWidth 32⟩ :: s.responses } ∧
    exec (.encbcd v) u = .next { u with responses := ⟨.ok, b.setWidth 32⟩ :: u.responses }

/-! ## Bounds clamp -/

/-- R80: CLAMP over a range that is not empty saturates its signed operand to the nearest bound. -/
def Obligations.ClampSaturatesToTheNearestBound : Prop :=
  (∀ w : CommandWord, w &&& 0xFFFF000000000000 = 0x3000000000000000 →
    decode w = .ok (.clamp (w.extractLsb' 0 16) (w.extractLsb' 16 16) (w.extractLsb' 32 16))) ∧
  ∀ (value lo hi : BitVec 16) (s : State), lo.toInt ≤ hi.toInt → ∃ r : BitVec 16,
    exec (.clamp value lo hi) s = .next { s with responses := ⟨.ok, r.setWidth 32⟩ :: s.responses } ∧
    (value.toInt < lo.toInt → r = lo) ∧ (hi.toInt < value.toInt → r = hi) ∧
    (lo.toInt ≤ value.toInt → value.toInt ≤ hi.toInt → r = value)

/-- R82: CLAMP with `lo > hi` answers OPERAND_FAULT with a zero payload and nothing else happens, and no other operation
answers it. -/
def Obligations.ClampRefusesAnEmptyRange : Prop :=
  (∀ (value lo hi : BitVec 16) (s : State), hi.toInt < lo.toInt →
    exec (.clamp value lo hi) s = .next { s with responses := ⟨.operandFault, 0⟩ :: s.responses }) ∧
  ∀ (i : Instr) (s t : State) (p : BitVec 32), exec i s = .next t → t.responses = ⟨.operandFault, p⟩ :: s.responses →
    i.op = .clamp

/-- R85, as commands: the result is in the range, it is the value exactly when the value is in the range, clamping again
changes nothing, the order of two values is kept, and the three examples. -/
def Obligations.ClampLaws : Prop :=
  (∀ (v₁ v₂ lo hi : BitVec 16) (s : State), lo.toInt ≤ hi.toInt → ∃ r₁ r₂ : BitVec 16,
    exec (.clamp v₁ lo hi) s = .next { s with responses := ⟨.ok, r₁.setWidth 32⟩ :: s.responses } ∧
    exec (.clamp v₂ lo hi) s = .next { s with responses := ⟨.ok, r₂.setWidth 32⟩ :: s.responses } ∧
    lo.toInt ≤ r₁.toInt ∧ r₁.toInt ≤ hi.toInt ∧
    (r₁ = v₁ ↔ lo.toInt ≤ v₁.toInt ∧ v₁.toInt ≤ hi.toInt) ∧
    exec (.clamp r₁ lo hi) s = .next { s with responses := ⟨.ok, r₁.setWidth 32⟩ :: s.responses } ∧
    (v₁.toInt ≤ v₂.toInt → r₁.toInt ≤ r₂.toInt)) ∧
  ∀ s : State,
    exec (.clamp 65 0 59) s = .next { s with responses := ⟨.ok, 59⟩ :: s.responses } ∧
    exec (.clamp (-1) 0 59) s = .next { s with responses := ⟨.ok, 0⟩ :: s.responses } ∧
    exec (.clamp 0 0 59) s = .next { s with responses := ⟨.ok, 0⟩ :: s.responses }

/-! ## Time register codec -/

/-- R90 to R94: the three register bytes TIMEENC gives, bit field by bit field, from the clamped fields. -/
def Obligations.TimeencRegisterBytes : Prop :=
  (∀ w : CommandWord, w &&& 0xFFFFFFFFF0000000 = 0x4000000000000000 → w.extractLsb' 26 2 ≠ 0b11#2 →
    decode w = .ok (.timeenc (w.extractLsb' 0 8) (w.extractLsb' 8 8) (w.extractLsb' 16 8) (w.getLsbD 24) (w.getLsbD 25)
      (w.extractLsb' 26 2))) ∧
  ∀ (second minute hour : Byte) (osc mode : Bool) (meridian : BitVec 2) (s : State), meridian ≠ 0b11#2 →
    ∃ b0 b1 b2 : Byte,
    exec (.timeenc second minute hour osc mode meridian) s
      = .next { s with responses := ⟨.ok, 0#8 ++ b2 ++ b1 ++ b0⟩ :: s.responses } ∧
    b0.getLsbD 7 = osc ∧
    (b0.extractLsb' 4 3).toNat = min second.toNat 59 / 10 ∧ (b0.extractLsb' 0 4).toNat = min second.toNat 59 % 10 ∧
    b1.getLsbD 7 = false ∧
    (b1.extractLsb' 4 3).toNat = min minute.toNat 59 / 10 ∧ (b1.extractLsb' 0 4).toNat = min minute.toNat 59 % 10 ∧
    b2.getLsbD 7 = false ∧ b2.getLsbD 6 = mode ∧
    (mode = true → b2.getLsbD 5 = decide (meridian = 0b10#2) ∧
      (b2.extractLsb' 4 1).toNat = max 1 (min hour.toNat 12) / 10 ∧
      (b2.extractLsb' 0 4).toNat = max 1 (min hour.toNat 12) % 10) ∧
    (mode = false →
      (b2.extractLsb' 4 2).toNat = min hour.toNat 23 / 10 ∧ (b2.extractLsb' 0 4).toNat = min hour.toNat 23 % 10)

/-- A TIMEENC term with the meridian field `0b11` is an illegal command in `exec` too, with no other effect (R57 item 4; that
the meaning checks it beside the decoder is the model's, log entry 15). -/
def Obligations.TimeencWithoutMeridianIsIllegal : Prop :=
  ∀ (second minute hour : Byte) (osc mode : Bool) (s : State),
    exec (.timeenc second minute hour osc mode 0b11) s
      = .next { s with responses := ⟨.illegalCommand, 0⟩ :: s.responses }

/-- R96 to R100, R102: the fields TIMEDEC gives, by the digits of the bytes, the hour's tens mask chosen by bit 6 of the hours
byte; nothing is clamped, the meridian is NotApplicable exactly in 24-hour mode and never `0b11`. -/
def Obligations.TimedecFields : Prop :=
  (∀ w : CommandWord, w &&& 0xFFFFFFFFFF000000 = 0x5000000000000000 →
    decode w = .ok (.timedec (w.extractLsb' 0 8) (w.extractLsb' 8 8) (w.extractLsb' 16 8))) ∧
  ∀ (b0 b1 b2 : Byte) (s : State), ∃ (second minute hour : Byte) (meridian : BitVec 2),
    exec (.timedec b0 b1 b2) s
      = .next { s with responses := ⟨.ok, 0#4 ++ meridian ++ BitVec.ofBool (b2.getLsbD 6) ++ BitVec.ofBool (b0.getLsbD 7) ++
          hour ++ minute ++ second⟩ :: s.responses } ∧
    second.toNat = (b0.extractLsb' 4 3).toNat * 10 + (b0.extractLsb' 0 4).toNat ∧ second.toNat ≤ 85 ∧
    minute.toNat = (b1.extractLsb' 4 3).toNat * 10 + (b1.extractLsb' 0 4).toNat ∧ minute.toNat ≤ 85 ∧
    (b2.getLsbD 6 = true →
      hour.toNat = (b2.extractLsb' 4 1).toNat * 10 + (b2.extractLsb' 0 4).toNat ∧ hour.toNat ≤ 25 ∧
      meridian = (if b2.getLsbD 5 then 0b10#2 else 0b01#2)) ∧
    (b2.getLsbD 6 = false →
      hour.toNat = (b2.extractLsb' 4 2).toNat * 10 + (b2.extractLsb' 0 4).toNat ∧ hour.toNat ≤ 45 ∧ meridian = 0b00#2) ∧
    (meridian = 0b00#2 ↔ b2.getLsbD 6 = false) ∧ meridian ≠ 0b11#2

/-- R95: what comes back through TIMEDEC of any TimeValue the port can carry: the fields clamped, the meridian dropped in
24-hour mode, and AM for a missing one in 12-hour mode. -/
def Obligations.TimeRoundTripNormalises : Prop :=
  ∀ (second minute hour : Byte) (osc mode : Bool) (meridian : BitVec 2) (s u : State), meridian ≠ 0b11#2 →
    ∃ b0 b1 b2 second' minute' hour' : Byte,
    exec (.timeenc second minute hour osc mode meridian) s
      = .next { s with responses := ⟨.ok, 0#8 ++ b2 ++ b1 ++ b0⟩ :: s.responses } ∧
    exec (.timedec b0 b1 b2) u
      = .next { u with responses := ⟨.ok, 0#4 ++
          (if mode then (if meridian = 0b10#2 then 0b10#2 else 0b01#2) else 0b00#2) ++
          BitVec.ofBool mode ++ BitVec.ofBool osc ++ hour' ++ minute' ++ second'⟩ :: u.responses } ∧
    second'.toNat = min second.toNat 59 ∧ minute'.toNat = min minute.toNat 59 ∧
    hour'.toNat = (if mode then max 1 (min hour.toNat 12) else min hour.toNat 23)

/-- R104: for every valid TimeValue, TIMEDEC of the bytes of TIMEENC gives the operand field back bit for bit; and TIMEENC of
what TIMEDEC gives returns the same three bytes exactly when the ignored bits are zero, the low nibbles are digits and the
decoded fields are within their clamp ranges. -/
def Obligations.TimeRoundTripOfValidValues : Prop :=
  (∀ (second minute hour : Byte) (osc mode : Bool) (meridian : BitVec 2) (s u : State),
    second.toNat ≤ 59 → minute.toNat ≤ 59 →
    (mode = true → 1 ≤ hour.toNat ∧ hour.toNat ≤ 12 ∧ (meridian = 0b01#2 ∨ meridian = 0b10#2)) →
    (mode = false → hour.toNat ≤ 23 ∧ meridian = 0b00#2) →
    ∃ b0 b1 b2 : Byte,
    exec (.timeenc second minute hour osc mode meridian) s
      = .next { s with responses := ⟨.ok, 0#8 ++ b2 ++ b1 ++ b0⟩ :: s.responses } ∧
    exec (.timedec b0 b1 b2) u
      = .next { u with responses := ⟨.ok, (encode (.timeenc second minute hour osc mode meridian)).extractLsb' 0 32⟩ ::
          u.responses }) ∧
  ∀ (b0 b1 b2 : Byte) (s u : State), ∃ (second minute hour : Byte) (osc mode : Bool) (meridian : BitVec 2),
    exec (.timedec b0 b1 b2) s
      = .next { s with responses := ⟨.ok, (encode (.timeenc second minute hour osc mode meridian)).extractLsb' 0 32⟩ ::
          s.responses } ∧
    (exec (.timeenc second minute hour osc mode meridian) u
      = .next { u with responses := ⟨.ok, 0#8 ++ b2 ++ b1 ++ b0⟩ :: u.responses } ↔
      (b1.getLsbD 7 = false ∧ b2.getLsbD 7 = false ∧
        (b0.extractLsb' 0 4).toNat ≤ 9 ∧ (b1.extractLsb' 0 4).toNat ≤ 9 ∧ (b2.extractLsb' 0 4).toNat ≤ 9 ∧
        second.toNat ≤ 59 ∧ minute.toNat ≤ 59 ∧
        (if mode then 1 ≤ hour.toNat ∧ hour.toNat ≤ 12 else hour.toNat ≤ 23)))

/-! ## Date register codec -/

/-- R110 to R114: the four register bytes DATEENC gives, each field clamped by itself. -/
def Obligations.DateencRegisterBytes : Prop :=
  (∀ w : CommandWord, w &&& 0xFFFFFFFF00000000 = 0x6000000000000000 →
    decode w = .ok (.dateenc (w.extractLsb' 0 8) (w.extractLsb' 8 8) (w.extractLsb' 16 8) (w.extractLsb' 24 8))) ∧
  ∀ (dow dom month year : Byte) (s : State), ∃ b0 b1 b2 b3 : Byte,
    exec (.dateenc dow dom month year) s
      = .next { s with responses := ⟨.ok, b3 ++ b2 ++ b1 ++ b0⟩ :: s.responses } ∧
    b0.toNat = max 1 (min dow.toNat 7) ∧
    (b1.extractLsb' 6 2) = 0 ∧ (b1.extractLsb' 4 2).toNat = max 1 (min dom.toNat 31) / 10 ∧
    (b1.extractLsb' 0 4).toNat = max 1 (min dom.toNat 31) % 10 ∧
    (b2.extractLsb' 5 3) = 0 ∧ (b2.extractLsb' 4 1).toNat = max 1 (min month.toNat 12) / 10 ∧
    (b2.extractLsb' 0 4).toNat = max 1 (min month.toNat 12) % 10 ∧
    (b3.extractLsb' 4 4).toNat = min year.toNat 99 / 10 ∧ (b3.extractLsb' 0 4).toNat = min year.toNat 99 % 10

/-- R115 to R119: the fields DATEDEC gives. The day-of-week is the whole byte where it is 1 to 7 and DOW_FALLBACK elsewhere,
so it is always in 1 to 7, for every value of the parameter; the other fields are digits under their masks, unclamped. -/
def Obligations.DatedecFields : Prop :=
  (∀ w : CommandWord, w &&& 0xFFFFFFFF00000000 = 0x7000000000000000 →
    decode w = .ok (.datedec (w.extractLsb' 0 8) (w.extractLsb' 8 8) (w.extractLsb' 16 8) (w.extractLsb' 24 8))) ∧
  ∀ (b0 b1 b2 b3 : Byte) (s : State), ∃ dow dom month year : Byte,
    exec (.datedec b0 b1 b2 b3) s
      = .next { s with responses := ⟨.ok, year ++ month ++ dom ++ dow⟩ :: s.responses } ∧
    (1 ≤ b0.toNat → b0.toNat ≤ 7 → dow = b0) ∧
    (b0.toNat = 0 ∨ 7 < b0.toNat → dow.toNat = s.params.dowFallback.val + 1) ∧
    1 ≤ dow.toNat ∧ dow.toNat ≤ 7 ∧
    dom.toNat = (b1.extractLsb' 4 2).toNat * 10 + (b1.extractLsb' 0 4).toNat ∧ dom.toNat ≤ 45 ∧
    month.toNat = (b2.extractLsb' 4 1).toNat * 10 + (b2.extractLsb' 0 4).toNat ∧ month.toNat ≤ 25 ∧
    year.toNat = (b3.extractLsb' 4 4).toNat * 10 + (b3.extractLsb' 0 4).toNat ∧ year.toNat ≤ 165

/-- R121: for every valid DateValue, DATEDEC of the bytes of DATEENC gives the operand field back, whatever DOW_FALLBACK is;
and DATEENC of what DATEDEC gives returns the same four bytes exactly under the condition of R121. -/
def Obligations.DateRoundTripOfValidValues : Prop :=
  (∀ (dow dom month year : Byte) (s u : State), 1 ≤ dow.toNat → dow.toNat ≤ 7 → 1 ≤ dom.toNat → dom.toNat ≤ 31 →
    1 ≤ month.toNat → month.toNat ≤ 12 → year.toNat ≤ 99 →
    ∃ b0 b1 b2 b3 : Byte,
    exec (.dateenc dow dom month year) s
      = .next { s with responses := ⟨.ok, b3 ++ b2 ++ b1 ++ b0⟩ :: s.responses } ∧
    exec (.datedec b0 b1 b2 b3) u
      = .next { u with responses := ⟨.ok, year ++ month ++ dom ++ dow⟩ :: u.responses }) ∧
  ∀ (b0 b1 b2 b3 : Byte) (s u : State), ∃ dow dom month year : Byte,
    exec (.datedec b0 b1 b2 b3) s
      = .next { s with responses := ⟨.ok, year ++ month ++ dom ++ dow⟩ :: s.responses } ∧
    (exec (.dateenc dow dom month year) u
      = .next { u with responses := ⟨.ok, b3 ++ b2 ++ b1 ++ b0⟩ :: u.responses } ↔
      (1 ≤ b0.toNat ∧ b0.toNat ≤ 7 ∧ b1.extractLsb' 6 2 = 0 ∧ b2.extractLsb' 5 3 = 0 ∧
        (b1.extractLsb' 0 4).toNat ≤ 9 ∧ (b2.extractLsb' 0 4).toNat ≤ 9 ∧ (b3.extractLsb' 0 4).toNat ≤ 9 ∧
        1 ≤ dom.toNat ∧ dom.toNat ≤ 31 ∧ 1 ≤ month.toNat ∧ month.toNat ≤ 12 ∧ year.toNat ≤ 99))

/-- R101, R122: which bits the two decoders ignore. Flipping bit 7 of the minutes or hours byte changes no TIMEDEC answer, nor
flipping bits 7:6 of the day-of-month byte or bits 7:5 of the month byte a DATEDEC answer; flipping any other bit of the
time bytes, of those two date bytes or of the year byte changes it; and a stray bit among bits 7:3 of a day-of-week byte in
1 to 7 gives the fallback. -/
def Obligations.DecodersIgnoreExactlyTheUnusedBits : Prop :=
  (∀ (b0 b1 b2 : Byte) (s : State) (k : Nat), k < 8 →
    (exec (.timedec (b0 ^^^ BitVec.twoPow 8 k) b1 b2) s ≠ exec (.timedec b0 b1 b2) s) ∧
    (exec (.timedec b0 (b1 ^^^ BitVec.twoPow 8 k) b2) s = exec (.timedec b0 b1 b2) s ↔ k = 7) ∧
    (exec (.timedec b0 b1 (b2 ^^^ BitVec.twoPow 8 k)) s = exec (.timedec b0 b1 b2) s ↔ k = 7)) ∧
  (∀ (b0 b1 b2 b3 : Byte) (s : State) (k : Nat), k < 8 →
    (exec (.datedec b0 (b1 ^^^ BitVec.twoPow 8 k) b2 b3) s = exec (.datedec b0 b1 b2 b3) s ↔ 6 ≤ k) ∧
    (exec (.datedec b0 b1 (b2 ^^^ BitVec.twoPow 8 k) b3) s = exec (.datedec b0 b1 b2 b3) s ↔ 5 ≤ k) ∧
    (exec (.datedec b0 b1 b2 (b3 ^^^ BitVec.twoPow 8 k)) s ≠ exec (.datedec b0 b1 b2 b3) s) ∧
    (3 ≤ k → 1 ≤ b0.toNat → b0.toNat ≤ 7 → ∃ dom month year dow : Byte,
      exec (.datedec (b0 ^^^ BitVec.twoPow 8 k) b1 b2 b3) s
        = .next { s with responses := ⟨.ok, year ++ month ++ dom ++ dow⟩ :: s.responses } ∧
      dow.toNat = s.params.dowFallback.val + 1))

/-! ## RAM address mapper -/

/-- R130, R131: MAPOFF gives `0x08 + (offset mod 56)`, always in [0x08, 0x3F], and issues no transaction. -/
def Obligations.MapoffGivesTheWindowAddress : Prop :=
  (∀ w : CommandWord, w &&& 0xFFFFFFFFFFFF0000 = 0x8000000000000000 → decode w = .ok (.mapoff (w.extractLsb' 0 16))) ∧
  ∀ (offset : BitVec 16) (s : State), ∃ a : BitVec 32,
    exec (.mapoff offset) s = .next { s with responses := ⟨.ok, a⟩ :: s.responses } ∧
    a.toNat = 0x08 + offset.toNat % 56 ∧ 0x08 ≤ a.toNat ∧ a.toNat ≤ 0x3F

/-- R34, R183: offsets that differ by a multiple of 56 name the same location, for all three operations, and MAPOFF tells
apart those that do not. -/
def Obligations.OffsetsAliasModulo56 : Prop :=
  ∀ (a b : BitVec 16) (v : Byte) (s : State),
    (a.toNat % 56 = b.toNat % 56 → exec (.ramrd a) s = exec (.ramrd b) s ∧ exec (.ramwr a v) s = exec (.ramwr b v) s) ∧
    (exec (.mapoff a) s = exec (.mapoff b) s ↔ a.toNat % 56 = b.toNat % 56)

/-- RAMRD when the transport answers. One read transaction at the mapped address, with the calls of R41; the first byte
delivered is the result, and an unacknowledged address phase or no byte gives TRANSPORT_FAILURE with a zero payload (R133,
R134, R137). Nothing else changes. How answers are lined up and calls recorded is the model's form, log entries 4 and 17;
that P of this state is unchanged is the model's choice, log entry 18 (the real peripheral's is left open, R39). -/
def Obligations.RamrdWhenTheTransportAnswers : Prop :=
  (∀ w : CommandWord, w &&& 0xFFFFFFFFFFFF0000 = 0x9000000000000000 → decode w = .ok (.ramrd (w.extractLsb' 0 16))) ∧
  ∀ (offset : BitVec 16) (s : State) (xs : Byte) (bytes : List Byte) (later : List Answer),
    s.transport = .unconstrained → s.answers = .reply xs bytes :: later → ∃ a : Byte, a.toNat = 0x08 + offset.toNat % 56 ∧
    (xs ≠ 0 → exec (.ramrd offset) s = .next { s with
      inFlight := none, answers := later, responses := ⟨.transportFailure, 0⟩ :: s.responses,
      busLog := [.beginTransaction s.params.devAddr, .writeByte a, .endTransaction false] :: s.busLog }) ∧
    (xs = 0 → bytes = [] → exec (.ramrd offset) s = .next { s with
      inFlight := none, answers := later, responses := ⟨.transportFailure, 0⟩ :: s.responses,
      busLog := [.beginTransaction s.params.devAddr, .writeByte a, .endTransaction false,
        .requestBytes s.params.devAddr 1 true] :: s.busLog }) ∧
    (∀ (b : Byte) (more : List Byte), xs = 0 → bytes = b :: more → exec (.ramrd offset) s = .next { s with
      inFlight := none, answers := later, responses := ⟨.ok, b.setWidth 32⟩ :: s.responses,
      busLog := [.beginTransaction s.params.devAddr, .writeByte a, .endTransaction false,
        .requestBytes s.params.devAddr 1 true, .readByte] :: s.busLog })

/-- RAMWR when the transport answers. One write transaction of the byte as it is, with the calls of R41; status 0 gives OK,
any other TRANSPORT_FAILURE, both with a zero payload (R135, R136, R137). Nothing else changes. How answers are lined up and
calls recorded is the model's form, log entries 4 and 17; that P of this state is unchanged is the model's choice, log entry
18, unsafe as a claim about the real peripheral, whose byte R136 and U5 leave open. -/
def Obligations.RamwrWhenTheTransportAnswers : Prop :=
  (∀ w : CommandWord, w &&& 0xFFFFFFFFFF000000 = 0xA000000000000000 →
    decode w = .ok (.ramwr (w.extractLsb' 0 16) (w.extractLsb' 16 8))) ∧
  ∀ (offset : BitVec 16) (v : Byte) (s : State) (xs : Byte) (bytes : List Byte) (later : List Answer),
    s.transport = .unconstrained → s.answers = .reply xs bytes :: later → ∃ a : Byte, a.toNat = 0x08 + offset.toNat % 56 ∧
    exec (.ramwr offset v) s = .next { s with
      inFlight := none, answers := later,
      responses := ⟨if xs = 0 then .ok else .transportFailure, 0⟩ :: s.responses,
      busLog := [.beginTransaction s.params.devAddr, .writeByte a, .writeByte v, .endTransaction true] :: s.busLog }

/-- A RAMRD or RAMWR whose transport has not answered yet waits: its transaction is in progress and there is no response.
The next steps take no input and, on every transport and for every answer, do what the command itself would do in that
state: they wait on, or end as it would have ended at once. A free answer is treated as a lined-up one is (R22, R43 item 2,
R186, U8). That the wait is a state of its own is the model's, log entries 2 to 4; that P is unchanged meanwhile is log
entry 18. -/
def Obligations.RamAccessWaitsForTheTransport : Prop :=
  (∀ (s : State) (offset : BitVec 16) (v : Byte), ∃ a : Byte, a.toNat = 0x08 + offset.toNat % 56 ∧
    step { s with inFlight := some (.read a) } = exec (.ramrd offset) { s with inFlight := some (.read a) } ∧
    step { s with inFlight := some (.write a v) } = exec (.ramwr offset v) { s with inFlight := some (.write a v) } ∧
    ∀ later : List Answer, s.transport = .unconstrained → s.answers = .pending :: later →
      exec (.ramrd offset) s = .next { s with answers := later, inFlight := some (.read a) } ∧
      exec (.ramwr offset v) s = .next { s with answers := later, inFlight := some (.write a v) }) ∧
  (∀ (s : State) (x : Transfer) (later : List Answer), s.transport = .unconstrained → s.inFlight = some x →
    s.answers = .pending :: later → step s = .next { s with answers := later }) ∧
  ∀ (s : State) (i : Instr), s.transport = .unconstrained → s.answers = [] → (i.op = .ramrd ∨ i.op = .ramwr) →
    exec i s = exec i { s with answers := [Config.freeAnswer s.draws], draws := s.draws + 1 }

/-- R49: on the reference transport RAMRD gives the byte of P at the mapped address and changes no byte; RAMWR sets that byte,
leaves every other and answers OK, where P is in canonical form. On its failing variant both answer TRANSPORT_FAILURE and P
is unchanged. Nothing else changes but the record of the transaction, whose form is log entry 17; that a RAMRD on the failing
variant fails in its address phase, and so the calls recorded for it, is the model's choice, log entry 10. -/
def Obligations.RamOperationsOnTheReferenceTransport : Prop :=
  ∀ (offset : BitVec 16) (v : Byte) (s : State), ∃ a : Byte, a.toNat = 0x08 + offset.toNat % 56 ∧
    (s.transport = .reference →
      exec (.ramrd offset) s = .next { s with
        inFlight := none, responses := ⟨.ok, (s.mem.read a.toNat).setWidth 32⟩ :: s.responses,
        busLog := [.beginTransaction s.params.devAddr, .writeByte a, .endTransaction false,
          .requestBytes s.params.devAddr 1 true, .readByte] :: s.busLog } ∧
      (s.mem.wf = true → ∃ m : Memory,
        exec (.ramwr offset v) s = .next { s with
          inFlight := none, mem := m, responses := ⟨.ok, 0⟩ :: s.responses,
          busLog := [.beginTransaction s.params.devAddr, .writeByte a, .writeByte v, .endTransaction true] :: s.busLog } ∧
        m.wf = true ∧ m.read a.toNat = v ∧ ∀ b : Nat, b ≠ a.toNat → m.read b = s.mem.read b)) ∧
    (s.transport = .failing →
      exec (.ramrd offset) s = .next { s with
        inFlight := none, responses := ⟨.transportFailure, 0⟩ :: s.responses,
        busLog := [.beginTransaction s.params.devAddr, .writeByte a, .endTransaction false] :: s.busLog } ∧
      exec (.ramwr offset v) s = .next { s with
        inFlight := none, responses := ⟨.transportFailure, 0⟩ :: s.responses,
        busLog := [.beginTransaction s.params.devAddr, .writeByte a, .writeByte v, .endTransaction true] :: s.busLog })

/-- R138: on the reference transport, after `RAMWR a, v` a `RAMRD b` gives `v` where `a` and `b` are congruent modulo 56 and
what P held at `b`'s address before where they are not, from every state whose P is in canonical form. -/
def Obligations.ReadAfterWriteOnTheReferenceTransport : Prop :=
  ∀ (a b : BitVec 16) (v : Byte) (s : State), s.transport = .reference → s.mem.wf = true →
    ∃ t u : State, exec (.ramwr a v) s = .next t ∧ t.responses = ⟨.ok, 0⟩ :: s.responses ∧
      exec (.ramrd b) t = .next u ∧
      u.responses = ⟨.ok, (if a.toNat % 56 = b.toNat % 56 then v else s.mem.read (0x08 + b.toNat % 56)).setWidth 32⟩ ::
        t.responses

/-- A RAMRD or RAMWR makes exactly one transaction, failed or not, at an address in the window: it is finished, or it is the
one in progress; and the steps after that finish this one or leave it in progress. Never more, and none is repeated. The
other operations and an illegal command make none (R137, R35). That a transaction can stay in progress after a step, and the
form of the record, are the model's, log entries 2 and 17. -/
def Obligations.OneTransactionPerRamCommand : Prop :=
  (∀ (i : Instr) (s t : State), (i.op = .ramrd ∨ i.op = .ramwr) → exec i s = .next t →
    (t.inFlight = none ∧ ∃ calls a, t.busLog = calls :: s.busLog ∧ callsAddress? calls = some a ∧ inWindow a) ∨
    (∃ x, t.inFlight = some x ∧ inWindow x.addr ∧ t.busLog = s.busLog)) ∧
  (∀ (x : Transfer) (s t : State), s.inFlight = some x → step s = .next t →
    (t.inFlight = none ∧ ∃ calls, t.busLog = calls :: s.busLog ∧ callsAddress? calls = some x.addr) ∨
    (t.inFlight = some x ∧ t.busLog = s.busLog)) ∧
  (∀ (i : Instr) (s t : State), i.op ≠ .ramrd → i.op ≠ .ramwr → exec i s = .next t →
    t.busLog = s.busLog ∧ t.inFlight = s.inFlight ∧ t.mem = s.mem ∧ t.answers = s.answers ∧ t.draws = s.draws) ∧
  ∀ (s t : State) (w : CommandWord) (rest : List Input), s.inFlight = none → s.inputs = .command w :: rest →
    illegalByR57 w → step s = .next t →
    t.busLog = s.busLog ∧ t.inFlight = none ∧ t.mem = s.mem ∧ t.answers = s.answers ∧ t.draws = s.draws

/-! ## The host's side -/

/-- R175 with R104: the host sets a valid time by TIMEENC and writing the bytes to addresses 0x00 to 0x02, reads the three
registers back, and TIMEDEC gives the time it set; no other byte of P changes. P is in canonical form before. (That the host's
writes reach the model as changes between commands, and that the bytes it reads belong to one instant, which N10 leaves open,
is the model's, log entry 23.) -/
def Obligations.SettingTheTimeAndReadingItBack : Prop :=
  ∀ (second minute hour : Byte) (osc mode : Bool) (meridian : BitVec 2) (s : State),
    s.inFlight = none → s.mem.wf = true → second.toNat ≤ 59 → minute.toNat ≤ 59 →
    (mode = true → 1 ≤ hour.toNat ∧ hour.toNat ≤ 12 ∧ (meridian = 0b01#2 ∨ meridian = 0b10#2)) →
    (mode = false → hour.toNat ≤ 23 ∧ meridian = 0b00#2) →
    ∃ (p : BitVec 32) (u : State),
      exec (.timeenc second minute hour osc mode meridian) s
        = .next { s with responses := ⟨.ok, p⟩ :: s.responses } ∧
      Host.Core.run Sys2Proof.core 3 { s with inputs := storeTime p } = .next u ∧
      exec (loadTime u.mem) u = .next { u with responses :=
        ⟨.ok, 0#4 ++ meridian ++ BitVec.ofBool mode ++ BitVec.ofBool osc ++ hour ++ minute ++ second⟩ :: u.responses } ∧
      ∀ a : Nat, 0x02 < a → u.mem.read a = s.mem.read a

/-- R175 with R121: the same for a valid date and addresses 0x03 to 0x06 (log entry 23 here too). -/
def Obligations.SettingTheDateAndReadingItBack : Prop :=
  ∀ (dow dom month year : Byte) (s : State), s.inFlight = none → s.mem.wf = true →
    1 ≤ dow.toNat → dow.toNat ≤ 7 → 1 ≤ dom.toNat → dom.toNat ≤ 31 → 1 ≤ month.toNat → month.toNat ≤ 12 →
    year.toNat ≤ 99 →
    ∃ (p : BitVec 32) (u : State),
      exec (.dateenc dow dom month year) s = .next { s with responses := ⟨.ok, p⟩ :: s.responses } ∧
      Host.Core.run Sys2Proof.core 4 { s with inputs := storeDate p } = .next u ∧
      exec (loadDate u.mem) u = .next { u with responses := ⟨.ok, year ++ month ++ dom ++ dow⟩ :: u.responses } ∧
      ∀ a : Nat, a < 0x03 ∨ 0x06 < a → u.mem.read a = s.mem.read a

/-- R58: the assembler cannot emit an illegal command. -/
def Obligations.AssemblerEmitsOnlyLegalCommands : Prop :=
  ∀ (line : List Char) (i : Instr), assemble line = .ok i → ¬ illegalByR57 (encode i)

/-- R59: the expansion of each pseudo-instruction. -/
def Obligations.PseudoInstructionsExpand : Prop :=
  ∀ (b : Byte) (v : BitVec 16),
    (Pseudo.decbcd .full b).expand = .decbcd b 0xF 0xF ∧ (Pseudo.decbcd .sec b).expand = .decbcd b 0x7 0xF ∧
    (Pseudo.decbcd .min b).expand = .decbcd b 0x7 0xF ∧ (Pseudo.decbcd .h12 b).expand = .decbcd b 0x1 0xF ∧
    (Pseudo.decbcd .h24 b).expand = .decbcd b 0x3 0xF ∧ (Pseudo.decbcd .dom b).expand = .decbcd b 0x3 0xF ∧
    (Pseudo.decbcd .mon b).expand = .decbcd b 0x1 0xF ∧ (Pseudo.decbcd .year b).expand = .decbcd b 0xF 0xF ∧
    (Pseudo.clamp .sec v).expand = .clamp v 0 59 ∧ (Pseudo.clamp .min v).expand = .clamp v 0 59 ∧
    (Pseudo.clamp .h12 v).expand = .clamp v 1 12 ∧ (Pseudo.clamp .h24 v).expand = .clamp v 0 23 ∧
    (Pseudo.clamp .dow v).expand = .clamp v 1 7 ∧ (Pseudo.clamp .dom v).expand = .clamp v 1 31 ∧
    (Pseudo.clamp .mon v).expand = .clamp v 1 12 ∧ (Pseudo.clamp .year v).expand = .clamp v 0 99

/-! ## A transaction in progress -/

/-- What the step answers when a transaction in progress gets its answer from the transport: the transaction ends, its calls
are recorded (R41), and the response is that of R133 and R134 for a read and of R135 and R136 for a write. No input is taken
and nothing else changes. The form of the wait, of the answers and of the record is the model's, log entries 2, 4 and 17;
that P of this state is unchanged is the model's choice, log entry 18. -/
def Obligations.TransactionInProgressEndsWithTheAnswer : Prop :=
  ∀ (s : State) (a v xs : Byte) (bytes : List Byte) (later : List Answer),
    s.transport = .unconstrained → s.answers = .reply xs bytes :: later →
    (s.inFlight = some (.read a) → xs ≠ 0 → step s = .next { s with
      inFlight := none, answers := later, responses := ⟨.transportFailure, 0⟩ :: s.responses,
      busLog := [.beginTransaction s.params.devAddr, .writeByte a, .endTransaction false] :: s.busLog }) ∧
    (s.inFlight = some (.read a) → xs = 0 → bytes = [] → step s = .next { s with
      inFlight := none, answers := later, responses := ⟨.transportFailure, 0⟩ :: s.responses,
      busLog := [.beginTransaction s.params.devAddr, .writeByte a, .endTransaction false,
        .requestBytes s.params.devAddr 1 true] :: s.busLog }) ∧
    (∀ (b : Byte) (more : List Byte), s.inFlight = some (.read a) → xs = 0 → bytes = b :: more → step s = .next { s with
      inFlight := none, answers := later, responses := ⟨.ok, b.setWidth 32⟩ :: s.responses,
      busLog := [.beginTransaction s.params.devAddr, .writeByte a, .endTransaction false,
        .requestBytes s.params.devAddr 1 true, .readByte] :: s.busLog }) ∧
    (s.inFlight = some (.write a v) → step s = .next { s with
      inFlight := none, answers := later,
      responses := ⟨if xs = 0 then .ok else .transportFailure, 0⟩ :: s.responses,
      busLog := [.beginTransaction s.params.devAddr, .writeByte a, .writeByte v, .endTransaction true] :: s.busLog })

/-- R10 for a RAMRD or RAMWR that waits (that the wait is a state of its own is the model's, log entry 2): of two states with
the same transaction in progress to which the transport gives the same answer, the step adds the same responses and ends the
transaction in both or in neither, whatever else the states hold. -/
def Obligations.WaitingCommandsDoNotDependOnHistory : Prop :=
  ∀ (x : Transfer) (s s' t t' : State), s.inFlight = some x → s'.inFlight = some x →
    (transact x s).1 = (transact x s').1 → step s = .next t → step s' = .next t' →
    ∃ new : List Response, t.responses = new ++ s.responses ∧ t'.responses = new ++ s'.responses ∧ t.inFlight = t'.inFlight
end

