-- ==== Sys2Proof/Laws/Codec.lean ====
section
/-! SUPPORT. What the codec functions compute, in numbers: the one lemma of each that callers cite. -/

namespace Sys2Proof.Machine

/-- The signed reading of R54 is the two's complement integer. -/
theorem signed_eq_toInt (f : BitVec 16) : signed f = f.toInt := by
  have h : f.getLsbD 15 = decide (32768 ≤ f.toNat) := by
    rw [BitVec.getLsbD, Nat.testBit_eq_decide_div_mod_eq]
    have := f.isLt
    congr 1
    simp only [eq_iff_iff]
    omega
  have hl := f.isLt
  unfold signed
  rw [h, BitVec.toInt_eq_toNat_cond, BitVec.extractLsb'_toNat]
  by_cases hc : 32768 ≤ f.toNat
  · simp [hc, Nat.shiftRight_zero]; omega
  · simp [hc, Nat.shiftRight_zero]; omega

/-- Tens over ones as a number. -/
theorem tens_or_ones (n : Nat) : ((n / 10) <<< 4) ||| (n % 10) = 16 * (n / 10) + n % 10 := by
  rw [← Nat.shiftLeft_add_eq_or_of_lt (by omega : n % 10 < 2 ^ 4), Nat.shiftLeft_eq]
  omega

/-- The byte of `encodeBcd` as a number (R70, R71). -/
theorem encodeBcd_toNat (n : Nat) : (encodeBcd n).toNat = (16 * (n / 10) + n % 10) % 256 := by
  simp [encodeBcd, tens_or_ones]

/-- The tens nibble of `encodeBcd` (R70, R71). -/
theorem encodeBcd_tens (n : Nat) : ((encodeBcd n).extractLsb' 4 4).toNat = n / 10 % 16 := by
  rw [BitVec.extractLsb'_toNat, encodeBcd_toNat, Nat.shiftRight_eq_div_pow]
  omega

/-- The ones nibble of `encodeBcd` (R70, R71). -/
theorem encodeBcd_ones (n : Nat) : ((encodeBcd n).extractLsb' 0 4).toNat = n % 10 := by
  rw [BitVec.extractLsb'_toNat, encodeBcd_toNat, Nat.shiftRight_zero]
  omega

/-- What `decodeBcd` computes, with no wrap-around (R72). -/
theorem decodeBcd_toNat (b : Byte) (tm om : BitVec 4) :
    (decodeBcd b tm om).toNat = (b.extractLsb' 4 4 &&& tm).toNat * 10 + (b.extractLsb' 0 4 &&& om).toNat := by
  have h1 := (b.extractLsb' 4 4 &&& tm).isLt
  have h2 := (b.extractLsb' 0 4 &&& om).isLt
  rw [decodeBcd, BitVec.toNat_ofNat, Nat.mod_eq_of_lt (by omega)]

/-- The clamp of a field is the nearest number of the range (R80, R81). -/
theorem clampField_eq (f : Byte) {lo hi : Nat} (h : lo ≤ hi) : clampField f lo hi = max lo (min f.toNat hi) := by
  unfold clampField clamp unsigned
  split
  · omega
  · split <;> omega

/-- The mapped address as a number (R130). -/
theorem mapOffset_toNat (offset : BitVec 16) : (mapOffset offset).toNat = 0x08 + offset.toNat % 56 := by
  simp only [mapOffset, unsigned, Config.windowStart, Config.windowSize, BitVec.toNat_ofNat]
  omega

/-- `DOW_FALLBACK` as a number (R5). -/
theorem fallbackOrdinal_toNat (p : Params) : (fallbackOrdinal p).toNat = p.dowFallback.val + 1 := by
  have := p.dowFallback.isLt
  simp only [fallbackOrdinal, BitVec.toNat_ofNat]
  omega

end Sys2Proof.Machine
end

