-- ==== Sys2Proof/Laws/Encoding.lean ====
section
/-! SUPPORT. Words as numbers: concatenation, the fields of a word, and the number each instruction is encoded as. -/

namespace Sys2Proof

/-- A concatenation as a number. -/
theorem append_toNat {n m : Nat} (x : BitVec n) (y : BitVec m) : (x ++ y).toNat = x.toNat * 2 ^ m + y.toNat := by
  rw [BitVec.toNat_append, ← Nat.shiftLeft_add_eq_or_of_lt y.isLt, Nat.shiftLeft_eq]

/-- A field as a number. -/
theorem extract_toNat {n : Nat} (w : BitVec n) (start len : Nat) :
    (w.extractLsb' start len).toNat = w.toNat / 2 ^ start % 2 ^ len := by
  rw [BitVec.extractLsb'_toNat, Nat.shiftRight_eq_div_pow]

/-- A bit of a word is set when its place in the number is odd. -/
theorem getLsbD_eq {n : Nat} (w : BitVec n) (k : Nat) : w.getLsbD k = decide (w.toNat / 2 ^ k % 2 = 1) := by
  rw [BitVec.getLsbD, Nat.testBit_eq_decide_div_mod_eq]

/-- A bit as a number. -/
theorem ofBool_toNat (b : Bool) : (BitVec.ofBool b).toNat = b.toNat := by cases b <;> rfl

/-- The number of the `arg` field, operand by operand (R52). -/
def argNumber : Instr → Nat
  | .encbcd value => value.toNat
  | .decbcd byte tm om => tm.toNat * 2 ^ 12 + om.toNat * 2 ^ 8 + byte.toNat
  | .clamp value lo hi => hi.toNat * 2 ^ 32 + lo.toNat * 2 ^ 16 + value.toNat
  | .timeenc second minute hour osc mode meridian =>
    meridian.toNat * 2 ^ 26 + mode.toNat * 2 ^ 25 + osc.toNat * 2 ^ 24 + hour.toNat * 2 ^ 16 + minute.toNat * 2 ^ 8 +
      second.toNat
  | .timedec b0 b1 b2 => b2.toNat * 2 ^ 16 + b1.toNat * 2 ^ 8 + b0.toNat
  | .dateenc dow dom month year => year.toNat * 2 ^ 24 + month.toNat * 2 ^ 16 + dom.toNat * 2 ^ 8 + dow.toNat
  | .datedec b0 b1 b2 b3 => b3.toNat * 2 ^ 24 + b2.toNat * 2 ^ 16 + b1.toNat * 2 ^ 8 + b0.toNat
  | .mapoff offset => offset.toNat
  | .ramrd offset => offset.toNat
  | .ramwr offset value => value.toNat * 2 ^ 16 + offset.toNat

/-- The `arg` field is the number R52 lays out. -/
theorem encodeArg_toNat (i : Instr) : (encodeArg i).toNat = argNumber i := by
  cases i with
  | encbcd value =>
    show ((0#40 : BitVec 40) ++ value).toNat = _
    simp only [append_toNat, argNumber, BitVec.toNat_ofNat]; omega
  | decbcd byte tm om =>
    show ((0#32 ++ tm ++ om ++ byte)).toNat = _
    simp only [append_toNat, argNumber, BitVec.toNat_ofNat]; omega
  | clamp value lo hi =>
    show (hi ++ lo ++ value).toNat = _
    simp only [append_toNat, argNumber]; omega
  | timeenc second minute hour osc mode meridian =>
    show (0#20 ++ meridian ++ BitVec.ofBool mode ++ BitVec.ofBool osc ++ hour ++ minute ++ second).toNat = _
    simp only [append_toNat, argNumber, BitVec.toNat_ofNat, ofBool_toNat]; omega
  | timedec b0 b1 b2 =>
    show (0#24 ++ b2 ++ b1 ++ b0).toNat = _
    simp only [append_toNat, argNumber, BitVec.toNat_ofNat]; omega
  | dateenc dow dom month year =>
    show (0#16 ++ year ++ month ++ dom ++ dow).toNat = _
    simp only [append_toNat, argNumber, BitVec.toNat_ofNat]; omega
  | datedec b0 b1 b2 b3 =>
    show (0#16 ++ b3 ++ b2 ++ b1 ++ b0).toNat = _
    simp only [append_toNat, argNumber, BitVec.toNat_ofNat]; omega
  | mapoff offset =>
    show (0#32 ++ offset).toNat = _
    simp only [append_toNat, argNumber, BitVec.toNat_ofNat]; omega
  | ramrd offset =>
    show (0#32 ++ offset).toNat = _
    simp only [append_toNat, argNumber, BitVec.toNat_ofNat]; omega
  | ramwr offset value =>
    show (0#24 ++ value ++ offset).toNat = _
    simp only [append_toNat, argNumber, BitVec.toNat_ofNat]; omega

/-- The encoded word as a number: `op` in bits 63:60 over `arg` in bits 47:0 (R50). -/
theorem encode_toNat (i : Instr) : (encode i).toNat = i.op.code.toNat * 2 ^ 60 + argNumber i := by
  show ((i.op.code ++ 0#12) ++ encodeArg i).toNat = _
  simp only [append_toNat, encodeArg_toNat, BitVec.toNat_ofNat]
  omega

/-- The operands fit the format's bits (R52). -/
theorem argNumber_lt (i : Instr) : argNumber i < 2 ^ i.op.argWidth := by
  cases i with
  | timeenc second minute hour osc mode meridian =>
    have := osc.toNat_lt
    have := mode.toNat_lt
    simp only [argNumber, Instr.op, Op.argWidth]
    omega
  | _ =>
    simp only [argNumber, Instr.op, Op.argWidth]
    omega

end Sys2Proof
end

