-- ==== Sys2Proof/Laws/Memory.lean ====
section
/-! SUPPORT. The laws of the register space P: read after write, and that a write keeps the canonical form. -/

namespace Sys2Proof.Machine

/-- An address below the first one that can be listed reads as an unwritten byte. -/
theorem Memory.read_below {m : Memory} {low a : Nat} (h : Memory.wfFrom low m = true) (ha : a < low) :
    Memory.read m a = Config.unwrittenByte := by
  induction m generalizing low with
  | nil => rfl
  | cons c m ih =>
    obtain ⟨b, v⟩ := c
    simp only [Memory.wfFrom, Bool.and_eq_true, decide_eq_true_eq] at h
    have hne : a ≠ b := by omega
    simp only [Memory.read, hne, if_false]
    exact ih h.2 (by omega)

/-- The canonical form holds from any lower address too. -/
theorem Memory.wfFrom_mono {m : Memory} {low low' : Nat} (h : Memory.wfFrom low m = true) (hl : low' ≤ low) :
    Memory.wfFrom low' m = true := by
  cases m with
  | nil => rfl
  | cons c m =>
    obtain ⟨b, v⟩ := c
    simp only [Memory.wfFrom, Bool.and_eq_true, decide_eq_true_eq] at h ⊢
    exact ⟨⟨⟨by omega, h.1.1.2⟩, h.1.2⟩, h.2⟩

/-- A write inside the space keeps the canonical form. -/
theorem Memory.wfFrom_write {m : Memory} {low a : Nat} {v : Byte} (h : Memory.wfFrom low m = true) (hl : low ≤ a)
    (ha : a < Config.spaceSize) : Memory.wfFrom low (Memory.write m a v) = true := by
  induction m generalizing low with
  | nil =>
    unfold Memory.write
    split <;> simp_all [Memory.wfFrom]
  | cons c m ih =>
    obtain ⟨b, u⟩ := c
    have h' := h
    simp only [Memory.wfFrom, Bool.and_eq_true, decide_eq_true_eq] at h'
    obtain ⟨⟨⟨h1, h2⟩, h3⟩, h4⟩ := h'
    unfold Memory.write
    split
    · next hab =>
      split
      · exact h
      · next hv =>
        simp only [Memory.wfFrom, Bool.and_eq_true, decide_eq_true_eq, bne_iff_ne, ne_eq]
        exact ⟨⟨⟨hl, ha⟩, hv⟩, ⟨⟨by omega, h2⟩, by simpa using h3⟩, h4⟩
    · split
      · next hab =>
        split
        · exact Memory.wfFrom_mono h4 (by omega)
        · next hv =>
          simp only [Memory.wfFrom, Bool.and_eq_true, decide_eq_true_eq, bne_iff_ne, ne_eq]
          exact ⟨⟨⟨hl, ha⟩, hv⟩, hab ▸ h4⟩
      · simp only [Memory.wfFrom, Bool.and_eq_true, decide_eq_true_eq]
        exact ⟨⟨⟨h1, h2⟩, h3⟩, ih h4 (by omega)⟩

/-- A write to one of the 64 locations keeps the canonical form of P. -/
theorem Memory.wf_write {m : Memory} {a : Nat} {v : Byte} (h : m.wf = true) (ha : a < Config.spaceSize) :
    (m.write a v).wf = true :=
  Memory.wfFrom_write h (Nat.zero_le a) ha

/-- What a byte reads as after a write, from any lower bound of the listed addresses. -/
theorem Memory.read_write_from {m : Memory} {low : Nat} (h : Memory.wfFrom low m = true) (a b : Nat) (v : Byte) :
    Memory.read (Memory.write m a v) b = if b = a then v else Memory.read m b := by
  induction m generalizing low with
  | nil =>
    unfold Memory.write
    split <;> simp_all [Memory.read]
  | cons c m ih =>
    obtain ⟨d, u⟩ := c
    have h' := h
    simp only [Memory.wfFrom, Bool.and_eq_true, decide_eq_true_eq] at h'
    obtain ⟨-, h4⟩ := h'
    unfold Memory.write
    split
    · next had =>
      split
      · next hv =>
        split
        · next hba =>
          subst hba
          have hbd : b ≠ d := by omega
          simp only [Memory.read, hbd, if_false]
          rw [Memory.read_below h4 (by omega), hv]
        · rfl
      · simp [Memory.read]
    · split
      · next had =>
        subst had
        split
        · next hv =>
          split
          · next hba =>
            subst hba
            rw [Memory.read_below h4 (by omega), hv]
          · next hba => simp [Memory.read, hba]
        · by_cases hba : b = a <;> simp [Memory.read, hba]
      · next hlt hne =>
        by_cases hbd : b = d
        · subst hbd
          have : b ≠ a := fun e => hne e.symm
          simp [Memory.read, this]
        · simp only [Memory.read, hbd, if_false]
          exact ih h4

/-- Read after write: the same location gives the byte written, every other is left alone. -/
theorem Memory.read_write {m : Memory} (h : m.wf = true) (a b : Nat) (v : Byte) :
    (m.write a v).read b = if b = a then v else m.read b :=
  Memory.read_write_from h a b v

end Sys2Proof.Machine
end

