-- ==== Sys2Proof/Laws/State.lean ====
section
/-! SUPPORT. One lemma per field of State for each update the shared operations make. -/

namespace Sys2Proof.Machine

section
variable (st : Status) (p : BitVec 32) (s : State)

@[simp] theorem respond_params : (respond st p s).params = s.params := rfl
@[simp] theorem respond_inputs : (respond st p s).inputs = s.inputs := rfl
@[simp] theorem respond_responses : (respond st p s).responses = ⟨st, p⟩ :: s.responses := rfl
@[simp] theorem respond_inFlight : (respond st p s).inFlight = s.inFlight := rfl
@[simp] theorem respond_transport : (respond st p s).transport = s.transport := rfl
@[simp] theorem respond_mem : (respond st p s).mem = s.mem := rfl
@[simp] theorem respond_answers : (respond st p s).answers = s.answers := rfl
@[simp] theorem respond_draws : (respond st p s).draws = s.draws := rfl
@[simp] theorem respond_busLog : (respond st p s).busLog = s.busLog := rfl

@[simp] theorem raise_params : (raise st s).params = s.params := rfl
@[simp] theorem raise_inputs : (raise st s).inputs = s.inputs := rfl
@[simp] theorem raise_responses : (raise st s).responses = ⟨st, 0⟩ :: s.responses := rfl
@[simp] theorem raise_inFlight : (raise st s).inFlight = s.inFlight := rfl
@[simp] theorem raise_transport : (raise st s).transport = s.transport := rfl
@[simp] theorem raise_mem : (raise st s).mem = s.mem := rfl
@[simp] theorem raise_answers : (raise st s).answers = s.answers := rfl
@[simp] theorem raise_draws : (raise st s).draws = s.draws := rfl
@[simp] theorem raise_busLog : (raise st s).busLog = s.busLog := rfl

@[simp] theorem coreReset_params : (coreReset s).params = s.params := rfl
@[simp] theorem coreReset_inputs : (coreReset s).inputs = s.inputs := rfl
@[simp] theorem coreReset_responses : (coreReset s).responses = s.responses := rfl
@[simp] theorem coreReset_inFlight : (coreReset s).inFlight = none := rfl
@[simp] theorem coreReset_transport : (coreReset s).transport = s.transport := rfl
@[simp] theorem coreReset_mem : (coreReset s).mem = s.mem := rfl
@[simp] theorem coreReset_answers : (coreReset s).answers = s.answers := rfl
@[simp] theorem coreReset_draws : (coreReset s).draws = s.draws := rfl
@[simp] theorem coreReset_busLog : (coreReset s).busLog = s.busLog := rfl

end

section
variable (x : Transfer) (status : Byte) (bytes : List Byte) (s : State)

@[simp] theorem finish_params : (finish x status bytes s).params = s.params := by
  unfold finish; repeat' split
  all_goals rfl

@[simp] theorem finish_inputs : (finish x status bytes s).inputs = s.inputs := by
  unfold finish; repeat' split
  all_goals rfl

@[simp] theorem finish_inFlight : (finish x status bytes s).inFlight = none := by
  unfold finish; repeat' split
  all_goals rfl

@[simp] theorem finish_transport : (finish x status bytes s).transport = s.transport := by
  unfold finish; repeat' split
  all_goals rfl

@[simp] theorem finish_mem : (finish x status bytes s).mem = s.mem := by
  unfold finish; repeat' split
  all_goals rfl

@[simp] theorem finish_answers : (finish x status bytes s).answers = s.answers := by
  unfold finish; repeat' split
  all_goals rfl

@[simp] theorem finish_draws : (finish x status bytes s).draws = s.draws := by
  unfold finish; repeat' split
  all_goals rfl

@[simp] theorem finish_busLog :
    (finish x status bytes s).busLog = x.calls s.params status bytes :: s.busLog := by
  unfold finish; repeat' split
  all_goals rfl

@[simp] theorem transact_params : (transact x s).2.params = s.params := by
  unfold transact; repeat' split
  all_goals rfl

@[simp] theorem transact_inputs : (transact x s).2.inputs = s.inputs := by
  unfold transact; repeat' split
  all_goals rfl

@[simp] theorem transact_responses : (transact x s).2.responses = s.responses := by
  unfold transact; repeat' split
  all_goals rfl

@[simp] theorem transact_inFlight : (transact x s).2.inFlight = s.inFlight := by
  unfold transact; repeat' split
  all_goals rfl

@[simp] theorem transact_transport : (transact x s).2.transport = s.transport := by
  unfold transact; repeat' split
  all_goals rfl

@[simp] theorem transact_busLog : (transact x s).2.busLog = s.busLog := by
  unfold transact; repeat' split
  all_goals rfl

end

end Sys2Proof.Machine
end

