-- ==== Sys2Proof/Laws/Ops.lean ====
section
/-! SUPPORT. What each shared operation over State can do, said once. -/

namespace Sys2Proof.Machine

/-- A finished transaction adds exactly one response, OK or TRANSPORT_FAILURE with a zero payload (R133 to R136). -/
theorem finish_responses_cases (x : Transfer) (status : Byte) (bytes : List Byte) (s : State) :
    ∃ st p, (finish x status bytes s).responses = ⟨st, p⟩ :: s.responses ∧
      (st = .ok ∨ st = .transportFailure ∧ p = 0) := by
  unfold finish
  repeat' split
  all_goals first
    | exact ⟨_, _, rfl, .inl rfl⟩
    | exact ⟨_, _, rfl, .inr ⟨rfl, rfl⟩⟩

/-- What a finished transaction adds to the responses is a matter of the transport's answer alone (R10). -/
theorem finish_adds (x : Transfer) (status : Byte) (bytes : List Byte) :
    ∃ r : Response, ∀ s, (finish x status bytes s).responses = r :: s.responses := by
  cases x with
  | read addr =>
    cases h : memReadResult status bytes with
    | none => exact ⟨⟨.transportFailure, 0⟩, fun s => by simp only [finish, h]; rfl⟩
    | some b => exact ⟨⟨.ok, payloadByte b⟩, fun s => by simp only [finish, h]; rfl⟩
  | write addr value =>
    by_cases h : status = 0
    · exact ⟨⟨.ok, 0⟩, fun s => by simp only [finish, if_pos h]; rfl⟩
    · exact ⟨⟨.transportFailure, 0⟩, fun s => by simp only [finish, if_neg h]; rfl⟩

/-- What `transact` can do to P: nothing, or the reference transport's write (R49). -/
theorem transact_mem_cases (x : Transfer) (s : State) :
    (transact x s).2.mem = s.mem ∨ ∃ a v, x = .write a v ∧ (transact x s).2.mem = s.mem.write a.toNat v := by
  unfold transact
  repeat' split
  all_goals first
    | exact .inl rfl
    | exact .inr ⟨_, _, rfl, rfl⟩

/-- Everything `access` can do: the transport has not answered and the transaction is in progress, or it has and the
transaction is finished. -/
theorem access_cases (x : Transfer) (s : State) :
    ((transact x s).1 = .pending ∧ access x s = { (transact x s).2 with inFlight := some x }) ∨
    ∃ status bytes, (transact x s).1 = .reply status bytes ∧ access x s = finish x status bytes (transact x s).2 := by
  unfold access
  split
  · next h => exact .inl ⟨by rw [h], by rw [h]⟩
  · next h => exact .inr ⟨_, _, by rw [h], by rw [h]⟩

@[simp] theorem access_params (x : Transfer) (s : State) : (access x s).params = s.params := by
  obtain ⟨-, h⟩ | ⟨_, _, -, h⟩ := access_cases x s <;> simp [h]

@[simp] theorem access_inputs (x : Transfer) (s : State) : (access x s).inputs = s.inputs := by
  obtain ⟨-, h⟩ | ⟨_, _, -, h⟩ := access_cases x s <;> simp [h]

@[simp] theorem access_transport (x : Transfer) (s : State) : (access x s).transport = s.transport := by
  obtain ⟨-, h⟩ | ⟨_, _, -, h⟩ := access_cases x s <;> simp [h]

/-- The content of P after an access is the content after the transport's answer. -/
@[simp] theorem access_mem (x : Transfer) (s : State) : (access x s).mem = (transact x s).2.mem := by
  obtain ⟨-, h⟩ | ⟨_, _, -, h⟩ := access_cases x s <;> simp [h]

/-- An access ends with one response and one finished transaction, or is in progress with neither (R137). -/
theorem access_ends_or_waits (x : Transfer) (s : State) :
    ((access x s).inFlight = none ∧
      (∃ st p, (access x s).responses = ⟨st, p⟩ :: s.responses ∧ (st = .ok ∨ st = .transportFailure ∧ p = 0)) ∧
      ∃ status bytes, (access x s).busLog = x.calls s.params status bytes :: s.busLog) ∨
    ((access x s).inFlight = some x ∧ (access x s).responses = s.responses ∧ (access x s).busLog = s.busLog) := by
  obtain ⟨-, h⟩ | ⟨status, bytes, -, h⟩ := access_cases x s
  · exact .inr (by simp [h])
  · refine .inl ⟨by simp [h], ?_, status, bytes, by simp [h]⟩
    obtain ⟨st, p, hr, hs⟩ := finish_responses_cases x status bytes (transact x s).2
    exact ⟨st, p, by simp [h, hr], hs⟩

/-- The mapped address lies in the window (R131). -/
theorem mapOffset_inWindow (offset : BitVec 16) : inWindow (mapOffset offset) := by
  have := mapOffset_toNat offset
  simp only [inWindow, Config.windowEnd, Config.windowStart, Config.windowSize]
  omega

/-- The register address of a transaction's calls is the transfer's address (R41). -/
theorem callsAddress_calls (p : Params) (x : Transfer) (status : Byte) (bytes : List Byte) :
    callsAddress? (x.calls p status bytes) = some x.addr := by
  cases x <;> rfl

/-- An access in the window keeps the canonical form of P. -/
theorem access_wf {x : Transfer} {s : State} (hx : inWindow x.addr) (h : s.mem.wf = true) :
    (access x s).mem.wf = true := by
  rw [access_mem]
  obtain h' | ⟨a, v, rfl, h'⟩ := transact_mem_cases x s
  · rwa [h']
  · rw [h']
    refine Memory.wf_write h ?_
    simp only [inWindow, Transfer.addr, Config.windowEnd, Config.windowStart, Config.windowSize] at hx
    simp only [Config.spaceSize]
    omega

/-- An access in the window leaves every byte outside it alone (R131). -/
theorem access_read_outside {x : Transfer} {s : State} (hx : inWindow x.addr) (h : s.mem.wf = true) {a : Nat}
    (ha : a < 0x08 ∨ 0x3F < a) : (access x s).mem.read a = s.mem.read a := by
  rw [access_mem]
  obtain h' | ⟨b, v, rfl, h'⟩ := transact_mem_cases x s
  · rw [h']
  · rw [h', Memory.read_write h, if_neg]
    simp only [inWindow, Transfer.addr, Config.windowEnd, Config.windowStart, Config.windowSize] at hx
    omega

end Sys2Proof.Machine
end

