-- ==== Sys2Proof/Laws/PerInstr.lean ====
section
/-!
SUPPORT. The family EncodeMeetsItsRow: the word of an instruction meets the match and mask of its own row of the opcode table
(30_encoding.md R53), so no operand reaches `op`, `rsv` or a must-be-zero bit.
-/

namespace Sys2Proof.Laws.EncodeMeetsItsRow

/-- The word under the mask of the operation's row is the row's match. -/
def Statement (i : Instr) : Prop :=
  ∀ row ∈ opcodeTable, row.op = i.op → encode i &&& row.mask = row.pattern

/-- A mask that covers the bits from a width up keeps them. -/
theorem and_mask (w : CommandWord) (k : Nat) : (w &&& (BitVec.allOnes 64 <<< k)).toNat = w.toNat / 2 ^ k * 2 ^ k := by
  have e : w &&& (BitVec.allOnes 64 <<< k) = (w >>> k) <<< k := by
    apply BitVec.eq_of_getLsbD_eq
    intro j hj
    simp only [BitVec.getLsbD_and, BitVec.getLsbD_shiftLeft, BitVec.getLsbD_ushiftRight, BitVec.getLsbD_allOnes, hj]
    by_cases hk : k ≤ j
    · have : j - k < 64 := by omega
      simp [hk, this, Nat.not_lt.mpr hk]
    · simp [Nat.lt_of_not_le hk]
  have hlt : w.toNat / 2 ^ k * 2 ^ k < 2 ^ 64 := Nat.lt_of_le_of_lt (Nat.div_mul_le_self _ _) w.isLt
  rw [e, BitVec.toNat_shiftLeft, BitVec.toNat_ushiftRight, Nat.shiftLeft_eq, Nat.shiftRight_eq_div_pow,
    Nat.mod_eq_of_lt hlt]

/-- The width of every format leaves the `op` field alone. -/
theorem argWidth_le (o : Op) : o.argWidth ≤ 60 := by cases o <;> decide

/-- An instruction meets a row whose mask covers all bits above its operands and whose match is its opcode. -/
theorem meets_row {i : Instr} {p m : CommandWord} (hm : m = BitVec.allOnes 64 <<< i.op.argWidth)
    (hp : p.toNat = i.op.code.toNat * 2 ^ 60) : encode i &&& m = p := by
  apply BitVec.eq_of_toNat_eq
  rw [hm, and_mask, hp, encode_toNat]
  have h1 := argNumber_lt i
  have h2 := argWidth_le i.op
  obtain ⟨d, hd⟩ : ∃ d, 2 ^ 60 = d * 2 ^ i.op.argWidth := ⟨2 ^ (60 - i.op.argWidth), by rw [← Nat.pow_add]; congr 1; omega⟩
  rw [hd, ← Nat.mul_assoc, Nat.add_comm, Nat.add_mul_div_right _ _ (Nat.two_pow_pos _), Nat.div_eq_of_lt h1, Nat.zero_add]

/-- Each row of the table has the mask of its operation's width and the match of its opcode. -/
theorem row_shape : ∀ row ∈ opcodeTable,
    row.mask = BitVec.allOnes 64 <<< row.op.argWidth ∧ row.pattern.toNat = row.op.code.toNat * 2 ^ 60 := by decide

/-- What the lemmas below have in common. -/
theorem meets_own_row (i : Instr) : Statement i := by
  intro row hr ho
  obtain ⟨hm, hp⟩ := row_shape row hr
  exact meets_row (ho ▸ hm) (ho ▸ hp)

theorem encbcd (value : Byte) : Statement (.encbcd value) := meets_own_row _
theorem decbcd (byte : Byte) (tm om : BitVec 4) : Statement (.decbcd byte tm om) := meets_own_row _
theorem clamp (value lo hi : BitVec 16) : Statement (.clamp value lo hi) := meets_own_row _
theorem timeenc (second minute hour : Byte) (osc mode : Bool) (meridian : BitVec 2) :
    Statement (.timeenc second minute hour osc mode meridian) := meets_own_row _
theorem timedec (b0 b1 b2 : Byte) : Statement (.timedec b0 b1 b2) := meets_own_row _
theorem dateenc (dow dom month year : Byte) : Statement (.dateenc dow dom month year) := meets_own_row _
theorem datedec (b0 b1 b2 b3 : Byte) : Statement (.datedec b0 b1 b2 b3) := meets_own_row _
theorem mapoff (offset : BitVec 16) : Statement (.mapoff offset) := meets_own_row _
theorem ramrd (offset : BitVec 16) : Statement (.ramrd offset) := meets_own_row _
theorem ramwr (offset : BitVec 16) (value : Byte) : Statement (.ramwr offset value) := meets_own_row _

end Sys2Proof.Laws.EncodeMeetsItsRow
end

