-- ==== Sys2Proof/Laws/Step.lean ====
section
/-! SUPPORT. What an operation and what a step can do, said once: the inversion lemmas that the invariants follow from. -/

namespace Sys2Proof.Machine

/-- Everything `exec` can do: add one response, with a zero payload unless it is OK; or, for RAMRD and RAMWR, one access in
the window. -/
theorem exec_cases (i : Instr) (s : State) :
    (i.op ≠ .ramrd ∧ i.op ≠ .ramwr ∧ ∃ st p, exec i s = .next (respond st p s) ∧ (st ≠ .ok → p = 0)) ∨
    ((i.op = .ramrd ∨ i.op = .ramwr) ∧ ∃ x, inWindow x.addr ∧ exec i s = .next (access x s)) := by
  cases i with
  | clamp value lo hi =>
    refine .inl ⟨by simp [Instr.op], by simp [Instr.op], ?_⟩
    simp only [exec, execClamp]
    split
    · exact ⟨_, _, rfl, fun _ => rfl⟩
    · exact ⟨_, _, rfl, fun h => absurd rfl h⟩
  | timeenc second minute hour osc mode meridian =>
    refine .inl ⟨by simp [Instr.op], by simp [Instr.op], ?_⟩
    simp only [exec, execTimeenc]
    split
    · exact ⟨_, _, rfl, fun _ => rfl⟩
    · exact ⟨_, _, rfl, fun h => absurd rfl h⟩
  | ramrd offset => exact .inr ⟨.inl rfl, .read _, mapOffset_inWindow offset, rfl⟩
  | ramwr offset value => exact .inr ⟨.inr rfl, .write _ value, mapOffset_inWindow offset, rfl⟩
  | _ =>
    refine .inl ⟨by simp [Instr.op], by simp [Instr.op], ?_⟩
    exact ⟨_, _, rfl, fun h => absurd rfl h⟩

/-- Everything a step that answers a next state can do: wait on for the transport; stay idle; or take the oldest input, which
is a command that is answered at once (illegal or not), a command that starts an access in the window, a change of one of
the 64 bytes of P, or a reset. -/
theorem step_cases {s t : State} (h : step s = .next t) :
    (∃ x, s.inFlight = some x ∧ t = access x s) ∨
    (s.inFlight = none ∧
      ((s.inputs = [] ∧ t = s) ∨
       (∃ w rest st p, s.inputs = .command w :: rest ∧ t = respond st p { s with inputs := rest } ∧ (st ≠ .ok → p = 0)) ∨
       (∃ w rest i x, s.inputs = .command w :: rest ∧ decode w = .ok i ∧ (i.op = .ramrd ∨ i.op = .ramwr) ∧
         inWindow x.addr ∧ t = access x { s with inputs := rest }) ∨
       (∃ a v rest, s.inputs = .external a v :: rest ∧ a.toNat < Config.spaceSize ∧
         t = { s with inputs := rest, mem := s.mem.write a.toNat v }) ∨
       (∃ rest, s.inputs = .reset :: rest ∧ t = { s with inputs := rest, inFlight := none }))) := by
  unfold step at h
  split at h
  · next x hx =>
    cases h
    exact .inl ⟨x, hx, rfl⟩
  · next hx =>
    refine .inr ⟨hx, ?_⟩
    split at h
    · next hi =>
      cases h
      exact .inl ⟨hi, rfl⟩
    · next w rest hi =>
      unfold runCommand at h
      split at h
      · cases h
        exact .inr (.inl ⟨w, rest, _, _, hi, rfl, fun _ => rfl⟩)
      · next i hd =>
        obtain ⟨-, -, st, p, he, hp⟩ | ⟨ho, x, hw, he⟩ := exec_cases i { s with inputs := rest }
        · rw [he] at h
          cases h
          exact .inr (.inl ⟨w, rest, st, p, hi, rfl, hp⟩)
        · rw [he] at h
          cases h
          exact .inr (.inr (.inl ⟨w, rest, i, x, hi, hd, ho, hw, rfl⟩))
    · next a v rest hi =>
      unfold externalChange at h
      split at h
      · next hl =>
        cases h
        exact .inr (.inr (.inr (.inl ⟨a, v, rest, hi, hl, rfl⟩)))
      · cases h
    · next rest hi =>
      cases h
      exact .inr (.inr (.inr (.inr ⟨rest, hi, rfl⟩)))

end Sys2Proof.Machine
end

