-- ==== Sys2Proof/Machine/ResponseText.lean ====
section
/-!
DEFINITION. How a response is written, `-> STATUS payload-fields` (30_encoding.md R58). The names of the payload fields and
the base of each number are those of the examples in the rules of the operations (log entry 22).
-/

namespace Sys2Proof.Machine

/-- The digit of a number below sixteen. -/
def digitChar (n : Nat) : Char := if n < 10 then Char.ofNat (48 + n) else Char.ofNat (55 + n)

/-- A number in decimal, with no leading zero, before `acc`; `fuel` bounds the number of digits. -/
def decimalFrom : Nat → Nat → List Char → List Char
  | 0, _, acc => acc
  | fuel + 1, n, acc =>
    if n < 10 then digitChar n :: acc else decimalFrom fuel (n / 10) (digitChar (n % 10) :: acc)

/-- A number of at most five digits, which a 16-bit value has. -/
def decimalText (n : Nat) : List Char := decimalFrom 5 n []

/-- A CLAMP result: a leading `-` where it is negative (R58). -/
def signedText (v : Int) : List Char := if v < 0 then '-' :: decimalText v.natAbs else decimalText v.natAbs

/-- A byte in hexadecimal, `0x` and two digits. -/
def hexText (b : Byte) : List Char := ['0', 'x', digitChar (b.toNat / 16), digitChar (b.toNat % 16)]

/-- The byte in bits `8*i+7 : 8*i` of a payload (R36, R55). -/
def payloadByteText (p : BitVec 32) (i : Nat) : Byte := p.extractLsb' (8 * i) 8

/-- The name of a status (R56). -/
def Status.text : Status → List Char
  | .ok => "OK".toList
  | .transportFailure => "TRANSPORT_FAILURE".toList
  | .illegalCommand => "ILLEGAL_COMMAND".toList
  | .operandFault => "OPERAND_FAULT".toList

/-- The name of a mode, as the assembler spells it (R58). -/
def modeText (is12HourMode : Bool) : List Char := if is12HourMode then "H12".toList else "H24".toList

/-- The name of a meridian, as the assembler spells it (R58); TIMEDEC never gives `0b11` (R102). -/
def meridianText (meridian : BitVec 2) : List Char :=
  match Meridian.ofCode? meridian with
  | some .notApplicable => "NA".toList
  | some .am => "AM".toList
  | some .pm => "PM".toList
  | none => []

/-- The fields of an OK payload, each a name and a value, by the layouts of R55. -/
def payloadFields (o : Op) (p : BitVec 32) : List (List Char × List Char) :=
  match o with
  | .encbcd => [("byte".toList, hexText (payloadByteText p 0))]
  | .decbcd => [("value".toList, decimalText (payloadByteText p 0).toNat)]
  | .clamp => [("result".toList, signedText (signed (p.extractLsb' 0 16)))]
  | .timeenc =>
    [ ("b0".toList, hexText (payloadByteText p 0)), ("b1".toList, hexText (payloadByteText p 1)),
      ("b2".toList, hexText (payloadByteText p 2)) ]
  | .timedec =>
    [ ("second".toList, decimalText (payloadByteText p 0).toNat), ("minute".toList, decimalText (payloadByteText p 1).toNat),
      ("hour".toList, decimalText (payloadByteText p 2).toNat), ("ch".toList, decimalText (p.getLsbD 24).toNat),
      ("mode".toList, modeText (p.getLsbD 25)), ("meridian".toList, meridianText (p.extractLsb' 26 2)) ]
  | .dateenc =>
    [ ("b0".toList, hexText (payloadByteText p 0)), ("b1".toList, hexText (payloadByteText p 1)),
      ("b2".toList, hexText (payloadByteText p 2)), ("b3".toList, hexText (payloadByteText p 3)) ]
  | .datedec =>
    [ ("dow".toList, decimalText (payloadByteText p 0).toNat), ("dom".toList, decimalText (payloadByteText p 1).toNat),
      ("month".toList, decimalText (payloadByteText p 2).toNat), ("year".toList, decimalText (payloadByteText p 3).toNat) ]
  | .mapoff => [("address".toList, hexText (payloadByteText p 0))]
  | .ramrd => [("byte".toList, hexText (payloadByteText p 0))]
  | .ramwr => []

/-- The line that writes a response to a command of the operation, or, with none, to an illegal word. The payload of a
response that is not OK means nothing (R55) and is not written. -/
def responseText (o : Option Op) (r : Response) : List Char :=
  let fields : List (List Char × List Char) :=
    match o, r.status with
    | some o, .ok => payloadFields o r.payload
    | _, _ => []
  "-> ".toList ++ r.status.text ++ fields.flatMap (fun field => ' ' :: field.1 ++ '=' :: field.2)

end Sys2Proof.Machine
end

