-- ==== Sys2Proof/Tests/Slice0.lean ====
section
/-!
SUPPORT. Tests and witnesses. Every expected word, byte and response here is copied from spec/ (the tables of R52, the
examples of the rules, 95_test_vectors.md) or worked out by hand from them. A theorem `witness_<name>` shows a state and
operands that meet the hypotheses of the obligation of that name.
-/

namespace Sys2Proof.Tests

open Sys2Proof Sys2Proof.Machine

/-! ## Helpers -/

/-- An idle CORE with these inputs at its ports, a transport that has these answers lined up, and `DEV_ADDR` 0. -/
def idle (inputs : List Input) (answers : List Answer) : State :=
  { State.reset with params := ⟨0, 0⟩, inputs := inputs, answers := answers }

/-- An idle CORE on a variant of the reference transport (R49). -/
def onReference (transport : Transport) (mem : Memory) : State := { idle [] [] with transport := transport, mem := mem }

/-- The newest response word after a step. -/
def newest (o : Host.Outcome State Fault Refusal) : Option ResponseWord :=
  match o with
  | .next t => t.responses.head?.map Response.word
  | .fault _ => none
  | .refused _ => none

/-- The response of the next step to a command word. -/
def answer (s : State) (w : Nat) : Option ResponseWord := newest (step (s.withFetchWord 64 w))

/-- The byte at an address of P after a step on a command word. -/
def byteAfter (s : State) (w a : Nat) : Option Byte :=
  match step (s.withFetchWord 64 w) with
  | .next t => some (t.mem.read a)
  | .fault _ => none
  | .refused _ => none

/-- Whether the step goes on. -/
def goesOn (o : Host.Outcome State Fault Refusal) : Bool :=
  match o with
  | .next _ => true
  | .fault _ => false
  | .refused _ => false

/-- Why the decoder refuses a word. -/
def refusal (w : CommandWord) : Option Illegal :=
  match decode w with
  | .ok _ => none
  | .error e => some e

/-- The command word a line of text assembles to. -/
def wordOf (line : String) : Option CommandWord :=
  match assemble line.toList with
  | .ok i => some (encode i)
  | .error _ => none

/-! ## WellFormed: the one check (R57 item 4) -/

theorem test_wf_refuses_meridian_0b11 : ¬ WellFormed (.timeenc 0 0 11 false true 0b11) := by decide
theorem test_wf_takes_pm : WellFormed (.timeenc 0 0 11 false true 0b10) := by decide

/-! ## Decoding: words written out from the tables of R52 and R51 -/

theorem test_decode_encbcd : decodeTableWord 64 0x100000000000003B = some (.encbcd 59) := by decide
theorem test_decode_decbcd : decodeTableWord 64 0x2000000000007FD8 = some (.decbcd 0xD8 0x7 0xF) := by decide
theorem test_decode_clamp : decodeTableWord 64 0x30000005FFFBFF9C = some (.clamp (-100) (-5) 5) := by decide
theorem test_decode_timeenc : decodeTableWord 64 0x400000000A0B1E05 = some (.timeenc 5 30 11 false true 0b10) := by decide
theorem test_decode_timeenc_flag : decodeTableWord 64 0x400000000114253A = some (.timeenc 58 37 20 true false 0b00) := by
  decide
theorem test_decode_timedec : decodeTableWord 64 0x50000000002037D8 = some (.timedec 0xD8 0x37 0x20) := by decide
theorem test_decode_dateenc : decodeTableWord 64 0x6000000018021E03 = some (.dateenc 3 30 2 24) := by decide
theorem test_decode_datedec : decodeTableWord 64 0x7000000024023003 = some (.datedec 0x03 0x30 0x02 0x24) := by decide
theorem test_decode_mapoff : decodeTableWord 64 0x80000000000000C8 = some (.mapoff 200) := by decide
theorem test_decode_ramrd : decodeTableWord 64 0x900000000000FFFF = some (.ramrd 65535) := by decide
theorem test_decode_ramwr : decodeTableWord 64 0xA0000000005A0038 = some (.ramwr 56 0x5A) := by decide

theorem test_refuse_zero : refusal 0 = some .unassignedOp := by decide
theorem test_refuse_ones : refusal (BitVec.allOnes 64) = some .unassignedOp := by decide
theorem test_refuse_op_b : refusal 0xB000000000000000 = some .unassignedOp := by decide
theorem test_refuse_rsv_low : refusal 0x100100000000003B = some .reservedBits := by decide
theorem test_refuse_rsv_clamp : refusal 0x3001003B00000041 = some .reservedBits := by decide
theorem test_refuse_arg_encbcd : refusal 0x100000000000013B = some .unusedArgBits := by decide
theorem test_refuse_arg_datedec : refusal 0x7000800000010101 = some .unusedArgBits := by decide
theorem test_refuse_meridian : refusal 0x400000000E0B0000 = some .meridian := by decide

/-! ## One step: at most two tests an instruction -/

theorem test_encbcd_59 : answer State.reset 0x100000000000003B = some 0x0000000059 := by decide
theorem test_encbcd_160 : answer State.reset 0x10000000000000A0 = some 0x0000000000 := by decide
theorem test_decbcd_flag_ignored : answer State.reset 0x2000000000007FD8 = some 0x000000003A := by decide
theorem test_decbcd_h12 : answer State.reset 0x2000000000001F71 = some 0x000000000B := by decide
theorem test_clamp_negative : answer State.reset 0x30000005FFFBFF9C = some 0x000000FFFB := by decide
theorem test_clamp_empty : answer State.reset 0x30000000006300A5 = some 0x0300000000 := by decide
theorem test_timeenc_pm : answer State.reset 0x400000000A0B1E00 = some 0x0000713000 := by decide
theorem test_timeenc_h24_flag : answer State.reset 0x400000000114253A = some 0x00002037D8 := by decide
theorem test_timedec_h24_flag : answer State.reset 0x50000000002037D8 = some 0x000114253A := by decide
theorem test_timedec_ones : answer State.reset 0x5000000000FFFFFF = some 0x000B195555 := by decide
theorem test_dateenc_clamps : answer State.reset 0x60000000640D2000 = some 0x0099123101 := by decide
theorem test_dateenc_february_30 : answer State.reset 0x6000000018021E03 = some 0x0024023003 := by decide
theorem test_datedec : answer State.reset 0x7000000024023003 = some 0x0018021E03 := by decide
theorem test_datedec_fallback : answer State.reset 0x7000000099123115 = some 0x00630C1F01 := by decide
theorem test_mapoff_200 : answer State.reset 0x80000000000000C8 = some 0x0000000028 := by decide
theorem test_mapoff_65535 : answer State.reset 0x800000000000FFFF = some 0x0000000017 := by decide
theorem test_ramrd_reference : answer (onReference .reference [(0x0D, 0xA5)]) 0x9000000000000005 = some 0x00000000A5 := by
  decide
theorem test_ramrd_no_byte : answer (idle [] [.reply 0 []]) 0x9000000000000005 = some 0x0100000000 := by decide
theorem test_ramwr_reference : byteAfter (onReference .reference []) 0xA0000000005A0038 0x08 = some 0x5A := by decide
theorem test_ramwr_not_acknowledged : answer (idle [] [.reply 3 []]) 0xA000000000A50005 = some 0x0100000000 := by decide
theorem test_illegal : answer State.reset 0x0000000000000000 = some 0x0200000000 := by decide

/-- A RAM command goes on right after reset, whatever the transport answers. -/
theorem test_ramrd_at_reset_goes_on : goesOn (step (State.reset.withFetchWord 64 0x9000000000000005)) = true := by decide

/-- The calls of a RAMRD that is answered with a byte (R41). -/
theorem test_ramrd_calls :
    (access (.read 0x0D) (idle [] [.reply 0 [0xA5, 0x11]])).busLog
      = [[.beginTransaction 0, .writeByte 0x0D, .endTransaction false, .requestBytes 0 1 true, .readByte]] := by decide

/-! ## Memory -/

theorem test_write_keeps_order : Memory.write [(0x08, 1), (0x0A, 2)] 0x09 7 = [(0x08, 1), (0x09, 7), (0x0A, 2)] := by decide
theorem test_write_of_the_unlisted_byte_unlists : Memory.write [(0x08, 1), (0x0A, 2)] 0x08 0 = [(0x0A, 2)] := by decide

/-! ## Assembler (R58, R59): lines of 95_test_vectors.md -/

theorem test_asm_timeenc : wordOf "TIMEENC 58, 37, 20, 1, H24, NA" = some 0x400000000114253A := by decide
theorem test_asm_clamp_negative : wordOf "CLAMP -1, 0, 59" = some 0x3000003B0000FFFF := by decide
theorem test_asm_pseudo : wordOf "DECBCD.YEAR 0x99 ; the year register" = some 0x200000000000FF99 := by decide
theorem test_asm_out_of_range : wordOf "ENCBCD 256" = none := by decide

/-! ## The text of a response (R58): examples of R80, R96 and R56 -/

theorem test_text_timedec :
    responseText (some .timedec) ⟨.ok, 0x0114253A⟩ = "-> OK second=58 minute=37 hour=20 ch=1 mode=H24 meridian=NA".toList := by
  decide
theorem test_text_negative : responseText (some .clamp) ⟨.ok, 0xFFFB⟩ = "-> OK result=-5".toList := by decide
theorem test_text_not_ok : responseText (some .ramrd) ⟨.transportFailure, 0⟩ = "-> TRANSPORT_FAILURE".toList := by decide

/-! ## Witnesses: decoding -/

theorem witness_DecoderSelectsByMatchAndMask :
    (0x100000000000003B#64 &&& 0xFFFFFFFFFFFFFF00 = 0x1000000000000000) ∧
    (0x400000000A0B0000#64 &&& 0xFFFFFFFFF0000000 = 0x4000000000000000 ∧ (0x400000000A0B0000#64).extractLsb' 26 2 ≠ 0b11#2) ∧
    (0x400000000E0B0000#64 &&& 0xFFFFFFFFF0000000 = 0x4000000000000000 ∧ (0x400000000E0B0000#64).extractLsb' 26 2 = 0b11#2) :=
  by decide

theorem witness_DecodeOfEncodeIsIdentity : WellFormed (.timeenc 255 255 255 true true 0b10) := by decide

theorem witness_EncodeOfDecodeIsIdentity : decode 0xA0000000005A0038 = .ok (.ramwr 56 0x5A) := by rfl

/-! ## Witnesses: the step -/

theorem witness_StepRunsTheDecodedCommand :
    (idle [.command 0x9000000000000005] []).inFlight = none ∧ decode 0x9000000000000005 = .ok (.ramrd 5) := ⟨by decide, by rfl⟩

/-- One word for each of the four conditions of R57. -/
theorem witness_IllegalWordsAnswerIllegalCommand :
    illegalByR57 0xB000000000000000 ∧ illegalByR57 0x180000000000003B ∧ illegalByR57 0x5000000001000000 ∧
    illegalByR57 0x400000000C0B0000 ∧ ¬ illegalByR57 0x3000FFFFFFFFFFFF ∧
    (idle [.command 0] []).inFlight = none ∧ (idle [.command 0] []).inputs = [.command 0] := by
  unfold illegalByR57; decide

theorem witness_ResetIsIdleAndReady :
    (idle [] []).inFlight = none ∧ (idle [] []).inputs = [] ∧ decode 0x100000000000003B = .ok (.encbcd 59) :=
  ⟨by decide, by decide, by rfl⟩

theorem witness_CoreResetTouchesNothing :
    (idle [.reset] []).inFlight = none ∧ (idle [.reset] []).inputs = [.reset] := by decide

/-- The last address that exists and the first that does not. -/
theorem witness_ExternalChangeSetsOneByte :
    (idle [.external 0x3F 1] []).inFlight = none ∧ (idle [.external 0x3F 1] []).inputs = [.external 0x3F 1] ∧
    (idle [.external 0x3F 1] []).mem.wf = true ∧ (0x3F#8).toNat ≤ 0x3F ∧ 0x3F < (0x40#8).toNat := by decide

theorem witness_CommandsRunOneAtATimeInOrder :
    step (idle [.reset] []) = .next (idle [] []) ∧
    step { idle [.reset] [.pending] with inFlight := some (.read 0x08) }
      = .next { idle [.reset] [] with inFlight := some (.read 0x08) } := ⟨by rfl, by rfl⟩

theorem witness_ExactlyOneResponsePerCommand :
    step (idle [.command 0] []) = .next { idle [] [] with responses := [⟨.illegalCommand, 0⟩] } ∧
    step (idle [.command 0x9000000000000005] [.pending]) = .next { idle [] [] with inFlight := some (.read 0x0D) } ∧
    step { idle [] [.pending] with inFlight := some (.read 0x0D) } = .next { idle [] [] with inFlight := some (.read 0x0D) } :=
  ⟨by rfl, by rfl, by rfl⟩

theorem witness_ParametersAreNeverChanged : step (idle [.reset] []) = .next (idle [] []) := by rfl

/-- A safe state with something in every field that the invariant speaks of, and a step from it that stores. -/
theorem witness_StepKeepsSafe :
    ({ onReference .reference [(0x08, 1), (0x3F, 2)] with
        inFlight := some (.write 0x3F 0), busLog := [[.beginTransaction 0, .writeByte 0x08]],
        responses := [⟨.transportFailure, 0⟩] } : State).Safe ∧
    step { onReference .reference [(0x08, 1), (0x3F, 2)] with inFlight := some (.write 0x3F 0) }
      = .next { onReference .reference [(0x08, 1)] with
          responses := [⟨.ok, 0⟩],
          busLog := [[.beginTransaction 0, .writeByte 0x3F, .writeByte 0, .endTransaction true]] } := by
  refine ⟨⟨by decide, ?_, ?_, ?_⟩, by rfl⟩
  · rintro x ⟨⟩; unfold inWindow; decide
  · intro calls h
    obtain rfl : calls = [.beginTransaction 0, .writeByte 0x08] := by simpa using h
    exact ⟨0x08, rfl, by unfold inWindow; decide⟩
  · intro r h _
    obtain rfl : r = ⟨.transportFailure, 0⟩ := by simpa using h
    rfl

/-- An idle state, and one with a transaction in progress while an out-of-band change waits at the port. -/
theorem witness_CoreNeverWritesOutsideTheWindow :
    (onReference .reference [(0x3F, 2)]).Safe ∧ (∀ a v rest, (onReference .reference [(0x3F, 2)]).inputs ≠ .external a v :: rest) ∧
    step (onReference .reference [(0x3F, 2)]) = .next (onReference .reference [(0x3F, 2)]) ∧
    ({ idle [.external 0x00 1] [.pending] with inFlight := some (.write 0x3F 0) } : State).Safe ∧
    ({ idle [.external 0x00 1] [.pending] with inFlight := some (.write 0x3F 0) } : State).inFlight ≠ none ∧
    step { idle [.external 0x00 1] [.pending] with inFlight := some (.write 0x3F 0) }
      = .next { idle [.external 0x00 1] [] with inFlight := some (.write 0x3F 0) } ∧
    (0x07 ≤ 0x07 ∧ 0x3F < 0x40) := by
  refine ⟨⟨by decide, ?_, ?_, ?_⟩, ?_, by rfl, ⟨by decide, ?_, ?_, ?_⟩, by decide, by rfl, by decide⟩
  · rintro x ⟨⟩
  · rintro x ⟨⟩
  · rintro x ⟨⟩
  · rintro a v rest ⟨⟩
  · rintro x ⟨⟩; unfold inWindow; decide
  · rintro x ⟨⟩
  · rintro x ⟨⟩

/-! ## Witnesses: every command -/

theorem witness_EveryCommandAnswersANextState : (onReference .reference [(0x08, 1), (0x3F, 2)]).mem.wf = true := by decide

/-- Two states with different histories, transports and contents of P whose transports give the transaction one answer. -/
theorem witness_ResponsesDoNotDependOnHistory :
    exec (.encbcd 59) (idle [] []) = .next { idle [] [] with responses := [⟨.ok, 0x59⟩] } ∧
    exec (.encbcd 59) { onReference .failing [(0x08, 1)] with responses := [⟨.ok, 1⟩] }
      = .next { onReference .failing [(0x08, 1)] with responses := [⟨.ok, 0x59⟩, ⟨.ok, 1⟩] } ∧
    (transact (.read (mapOffset 5)) (idle [] [.reply 0 [0xA5]])).1
      = (transact (.read (mapOffset 5)) { onReference .reference [(0x0D, 0xA5), (0x3F, 1)] with responses := [⟨.ok, 1⟩] }).1 ∧
    newest (exec (.ramrd 5) (idle [] [.reply 0 [0xA5]])) = some 0xA5 ∧
    (transact (.write (mapOffset 5) 7) (idle [] [.reply 0 []])).1 = (transact (.write (mapOffset 5) 7) (onReference .reference [])).1 :=
  ⟨by rfl, by rfl, by decide, by decide, by decide⟩

/-- Two different states with the same transaction in progress and the same answer to it. -/
theorem witness_WaitingCommandsDoNotDependOnHistory :
    (transact (.read 0x0D) { idle [] [.pending] with inFlight := some (.read 0x0D) }).1
      = (transact (.read 0x0D) { idle [.reset] [.pending, .reply 0 [1]] with inFlight := some (.read 0x0D) }).1 ∧
    step { idle [] [.pending] with inFlight := some (.read 0x0D) } = .next { idle [] [] with inFlight := some (.read 0x0D) } ∧
    step { idle [.reset] [.pending, .reply 0 [1]] with inFlight := some (.read 0x0D) }
      = .next { idle [.reset] [.reply 0 [1]] with inFlight := some (.read 0x0D) } := ⟨by decide, by rfl, by rfl⟩

/-- The operations that can fail, failing, and a transaction in progress that ends in either status. -/
theorem witness_StatusesOfEachOperation :
    exec (.clamp 0 1 0) (idle [] []) = .next { idle [] [] with responses := [⟨.operandFault, 0⟩] } ∧
    newest (exec (.ramrd 5) (idle [] [.reply 1 []])) = some 0x0100000000 ∧
    newest (exec (.ramwr 5 0) (idle [] [.reply 1 []])) = some 0x0100000000 ∧
    newest (step { idle [] [.reply 0 []] with inFlight := some (.write 0x3F 1) }) = some 0 ∧
    newest (step { idle [] [.reply 0 []] with inFlight := some (.read 0x3F) }) = some 0x0100000000 :=
  ⟨by rfl, by decide, by decide, by decide, by decide⟩

theorem witness_EightOperationsOnlyRespond : (Instr.mapoff 0).op ≠ .ramrd ∧ (Instr.mapoff 0).op ≠ .ramwr := by decide

/-! ## Witnesses: BCD codec and clamp -/

theorem witness_EncbcdPacksTheDigits :
    0x1000000000000063#64 &&& 0xFFFFFFFFFFFFFF00 = 0x1000000000000000 ∧ (99#8).toNat ≤ 99 := by decide

theorem witness_EncbcdFrom100LosesTensBits : 100 ≤ (100#8).toNat := by decide

theorem witness_DecbcdUnpacksMaskedDigits : 0x200000000000FFFF#64 &&& 0xFFFFFFFFFFFF0000 = 0x2000000000000000 := by decide

/-- The narrowest mask that holds the digit (59 under 0x7), the full mask, and a byte of two digits. -/
theorem witness_BcdRoundTrips :
    ((59#8).toNat ≤ 99 ∧ (0x7#4).toNat = 2 ^ 3 - 1 ∧ (59#8).toNat / 10 ≤ (0x7#4).toNat) ∧
    ((99#8).toNat ≤ 99 ∧ (0xF#4).toNat = 2 ^ 4 - 1 ∧ (99#8).toNat / 10 ≤ (0xF#4).toNat) ∧
    (((0x99#8).extractLsb' 4 4).toNat ≤ 9 ∧ ((0x99#8).extractLsb' 0 4).toNat ≤ 9) := by decide

/-- A range of one value, and a value at, below and above a bound. -/
theorem witness_ClampSaturatesToTheNearestBound :
    0x3000003B00000041#64 &&& 0xFFFF000000000000 = 0x3000000000000000 ∧
    (7#16).toInt ≤ (7#16).toInt ∧ (0x8000#16).toInt ≤ (0x7FFF#16).toInt ∧
    (0x8000#16).toInt < (0#16).toInt ∧ (59#16).toInt < (0x7FFF#16).toInt ∧ (0#16).toInt ≤ (0#16).toInt := by decide

theorem witness_ClampRefusesAnEmptyRange :
    (0#16).toInt < (1#16).toInt ∧
    exec (.clamp 0 1 0) (idle [] []) = .next { idle [] [] with responses := [⟨.operandFault, 0⟩] } := ⟨by decide, by rfl⟩

theorem witness_ClampLaws : (0#16).toInt ≤ (0#16).toInt ∧ (0x8000#16).toInt ≤ (0x7FFF#16).toInt := by decide

/-! ## Witnesses: time and date -/

theorem witness_TimeencRegisterBytes :
    0x400000000A0B0000#64 &&& 0xFFFFFFFFF0000000 = 0x4000000000000000 ∧
    (0x400000000A0B0000#64).extractLsb' 26 2 ≠ 0b11#2 ∧ (0b10#2 ≠ 0b11#2) := by decide

theorem witness_TimedecFields :
    0x5000000000FFFFFF#64 &&& 0xFFFFFFFFFF000000 = 0x5000000000000000 ∧
    (0x71#8).getLsbD 6 = true ∧ (0x23#8).getLsbD 6 = false := by decide

theorem witness_TimeRoundTripNormalises : 0b01#2 ≠ 0b11#2 ∧ 0b00#2 ≠ 0b11#2 := by decide

/-- The largest valid time of each mode. -/
theorem witness_TimeRoundTripOfValidValues :
    ((59#8).toNat ≤ 59 ∧ 1 ≤ (12#8).toNat ∧ (12#8).toNat ≤ 12 ∧ (0b10#2 = 0b01#2 ∨ 0b10#2 = 0b10#2)) ∧
    ((59#8).toNat ≤ 59 ∧ (23#8).toNat ≤ 23 ∧ 0b00#2 = 0b00#2) := by decide

theorem witness_DateencRegisterBytes : 0x60000000640D2000#64 &&& 0xFFFFFFFF00000000 = 0x6000000000000000 := by decide

/-- Both clauses of the day-of-week at their boundaries. -/
theorem witness_DatedecFields :
    0x7000000099123115#64 &&& 0xFFFFFFFF00000000 = 0x7000000000000000 ∧
    (1 ≤ (7#8).toNat ∧ (7#8).toNat ≤ 7) ∧ (0#8).toNat = 0 ∧ 7 < (8#8).toNat := by decide

/-- The smallest and the largest valid date. -/
theorem witness_DateRoundTripOfValidValues :
    (1 ≤ (1#8).toNat ∧ (1#8).toNat ≤ 7 ∧ (1#8).toNat ≤ 31 ∧ (1#8).toNat ≤ 12 ∧ (0#8).toNat ≤ 99) ∧
    (1 ≤ (7#8).toNat ∧ (7#8).toNat ≤ 7 ∧ 1 ≤ (31#8).toNat ∧ (31#8).toNat ≤ 31 ∧ 1 ≤ (12#8).toNat ∧ (12#8).toNat ≤ 12 ∧
      (99#8).toNat ≤ 99) := by decide

theorem witness_DecodersIgnoreExactlyTheUnusedBits :
    0 < 8 ∧ 7 < 8 ∧ 3 ≤ 3 ∧ 1 ≤ (1#8).toNat ∧ (7#8).toNat ≤ 7 := by decide

/-! ## Witnesses: RAM -/

theorem witness_MapoffGivesTheWindowAddress : 0x800000000000FFFF#64 &&& 0xFFFFFFFFFFFF0000 = 0x8000000000000000 := by decide

theorem witness_OffsetsAliasModulo56 : (3#16).toNat % 56 = (59#16).toNat % 56 ∧ (55#16).toNat % 56 ≠ (56#16).toNat % 56 := by
  decide

/-- The three cases of the answer: not acknowledged, no byte, a byte (and one more, which is ignored). -/
theorem witness_RamrdWhenTheTransportAnswers :
    0x900000000000FFFF#64 &&& 0xFFFFFFFFFFFF0000 = 0x9000000000000000 ∧
    (idle [] [.reply 1 []]).transport = .unconstrained ∧
    (idle [] [.reply 1 []]).answers = [.reply 1 []] ∧ (1#8 ≠ 0) ∧
    (idle [] [.reply 0 []]).answers = [.reply 0 []] ∧
    (idle [] [.reply 0 [0xA5, 0x11]]).answers = [.reply 0 [0xA5, 0x11]] := by decide

theorem witness_RamwrWhenTheTransportAnswers :
    0xA0000000005A0038#64 &&& 0xFFFFFFFFFF000000 = 0xA000000000000000 ∧
    (idle [] [.reply 0 []]).transport = .unconstrained ∧ (idle [] [.reply 0 []]).answers = [.reply 0 []] ∧
    (idle [] [.reply 0xFF []]).answers = [.reply 0xFF []] ∧ (0xFF#8 ≠ 0) := by decide

/-- The clauses with a premise: an answer not there yet, waiting on, and a free answer. -/
theorem witness_RamAccessWaitsForTheTransport :
    (idle [] [.pending]).transport = .unconstrained ∧ (idle [] [.pending]).answers = [.pending] ∧
    ({ idle [] [.pending] with inFlight := some (.write 0x3F 1) } : State).inFlight = some (.write 0x3F 1) ∧
    (idle [] []).answers = [] ∧ (Instr.ramwr 0 0).op = .ramwr := by decide

theorem witness_RamOperationsOnTheReferenceTransport :
    (onReference .reference [(0x08, 1)]).transport = .reference ∧ (onReference .reference [(0x08, 1)]).mem.wf = true ∧
    (onReference .failing []).transport = .failing := by decide

/-- Offsets that name one location and offsets that do not. -/
theorem witness_ReadAfterWriteOnTheReferenceTransport :
    (onReference .reference [(0x3F, 1)]).transport = .reference ∧ (onReference .reference [(0x3F, 1)]).mem.wf = true ∧
    (3#16).toNat % 56 = (59#16).toNat % 56 ∧ (0#16).toNat % 56 ≠ (55#16).toNat % 56 := by decide

theorem witness_OneTransactionPerRamCommand :
    exec (.ramrd 5) (idle [] [.pending]) = .next { idle [] [] with inFlight := some (.read 0x0D) } ∧
    step { idle [] [.reply 1 []] with inFlight := some (.read 0x0D) }
      = .next { idle [] [] with
          responses := [⟨.transportFailure, 0⟩],
          busLog := [[.beginTransaction 0, .writeByte 0x0D, .endTransaction false]] } ∧
    exec (.mapoff 5) (idle [] []) = .next { idle [] [] with responses := [⟨.ok, 0x0D⟩] } ∧
    step (idle [.command 0] []) = .next { idle [] [] with responses := [⟨.illegalCommand, 0⟩] } ∧ illegalByR57 0 :=
  ⟨by rfl, by rfl, by rfl, by rfl, .inl (.inl rfl)⟩

/-- The four clauses: not acknowledged, no byte, a byte and one more, and a write of either outcome. -/
theorem witness_TransactionInProgressEndsWithTheAnswer :
    (idle [] [.reply 0 [0xA5, 0x11]]).transport = .unconstrained ∧
    (idle [] [.reply 1 []]).answers = [.reply 1 []] ∧ (1#8 ≠ 0) ∧
    (idle [] [.reply 0 []]).answers = [.reply 0 []] ∧
    (idle [] [.reply 0 [0xA5, 0x11]]).answers = [.reply 0 [0xA5, 0x11]] ∧
    ({ idle [] [.reply 0 [0xA5, 0x11]] with inFlight := some (.read 0x3F) } : State).inFlight = some (.read 0x3F) ∧
    ({ idle [] [.reply 1 []] with inFlight := some (.write 0x08 7) } : State).inFlight = some (.write 0x08 7) := by decide

/-! ## Witnesses: the host's side -/

theorem witness_SettingTheTimeAndReadingItBack :
    (onReference .reference [(0x00, 1)]).inFlight = none ∧ (onReference .reference [(0x00, 1)]).mem.wf = true ∧
    ((59#8).toNat ≤ 59 ∧ 1 ≤ (1#8).toNat ∧ (1#8).toNat ≤ 12 ∧ (0b01#2 = 0b01#2 ∨ 0b01#2 = 0b10#2)) ∧
    ((0#8).toNat ≤ 59 ∧ (23#8).toNat ≤ 23 ∧ 0b00#2 = 0b00#2) := by decide

theorem witness_SettingTheDateAndReadingItBack :
    (idle [] []).inFlight = none ∧ (idle [] []).mem.wf = true ∧
    1 ≤ (7#8).toNat ∧ (7#8).toNat ≤ 7 ∧ 1 ≤ (31#8).toNat ∧ (31#8).toNat ≤ 31 ∧ 1 ≤ (12#8).toNat ∧ (12#8).toNat ≤ 12 ∧
    (99#8).toNat ≤ 99 := by decide

theorem witness_AssemblerEmitsOnlyLegalCommands : assemble "RAMWR 56, 0x5A".toList = .ok (.ramwr 56 0x5A) := by rfl

end Sys2Proof.Tests
end

section
/-!
PROOFS. The state and what can change it (spec/10_state.md): the step of the idle CORE and of a waiting one, the answers of the
transport, an out-of-band change of P, and that a response depends on nothing a command left behind (R10).
-/

namespace Sys2Proof.Machine

/-! ## The step, one equation per thing it can find to do -/

/-- With a transaction in progress the step polls the transport and takes no input (R43). -/
theorem step_of_inFlight {s : State} {x : Transfer} (h : s.inFlight = some x) : step s = .next (access x s) := by
  simp only [step, h]

/-- The idle CORE takes the command at its port and runs it (R12). -/
theorem step_of_command {s : State} {w : CommandWord} {rest : List Input} (hf : s.inFlight = none)
    (hi : s.inputs = .command w :: rest) : step s = runCommand w { s with inputs := rest } := by
  simp only [step, hf, hi]

/-- The idle CORE's step lets an out-of-band change happen (R21). -/
theorem step_of_external {s : State} {a v : Byte} {rest : List Input} (hf : s.inFlight = none)
    (hi : s.inputs = .external a v :: rest) : step s = externalChange a v { s with inputs := rest } := by
  simp only [step, hf, hi]

/-- A legal command word is executed by its operation's own rule (R157). -/
theorem runCommand_of_decode {w : CommandWord} {i : Instr} (h : decode w = .ok i) (s : State) :
    runCommand w s = exec i s := by
  simp only [runCommand, h]

/-- Settles O5: the step runs the word, and a legal word runs as the instruction it decodes to. -/
theorem stepRunsTheDecodedCommand : Obligations.StepRunsTheDecodedCommand := by
  intro s w rest i hf hi hd
  rw [step_of_command hf hi, runCommand_of_decode hd]

/-! ## Out-of-band changes of P -/

/-- A change at one of the 64 locations is a write to P and nothing else (R21). -/
theorem externalChange_of_le {a : Byte} (h : a.toNat ≤ 0x3F) (v : Byte) (s : State) :
    externalChange a v s = .next { s with mem := s.mem.write a.toNat v } :=
  if_pos (Nat.lt_succ_of_le h)

/-- A change above the 64 locations is the fault (R30). -/
theorem externalChange_of_gt {a : Byte} (h : 0x3F < a.toNat) (v : Byte) (s : State) :
    externalChange a v s = .fault (.noSuchRegister a) :=
  if_neg (Nat.not_lt_of_ge h)

/-- Settles O9: the change is one `Memory.write`, which read after write describes byte by byte. -/
theorem externalChangeSetsOneByte : Obligations.ExternalChangeSetsOneByte := by
  intro s a v rest hf hi hwf
  rw [step_of_external hf hi]
  constructor
  · intro ha
    refine ⟨s.mem.write a.toNat v, externalChange_of_le ha v _, ?_, fun b hb => ?_⟩
    · rw [Memory.read_write hwf, if_pos rfl]
    · rw [Memory.read_write hwf, if_neg hb]
  · intro ha
    exact externalChange_of_gt ha v _

/-! ## The transport's answer to the transaction -/

/-- RAMRD is one access, a read at the mapped address (R133). -/
theorem exec_ramrd (offset : BitVec 16) (s : State) :
    exec (.ramrd offset) s = .next (access (.read (mapOffset offset)) s) := rfl

/-- RAMWR is one access, a write at the mapped address (R135). -/
theorem exec_ramwr (offset : BitVec 16) (v : Byte) (s : State) :
    exec (.ramwr offset v) s = .next (access (.write (mapOffset offset) v) s) := rfl

/-- The unconstrained transport answers what is lined up first, which uses it up (R42). -/
theorem transact_of_linedUp (x : Transfer) {s : State} {a : Answer} {later : List Answer}
    (ht : s.transport = .unconstrained) (ha : s.answers = a :: later) :
    transact x s = (a, { s with answers := later }) := by
  simp only [transact, ht, ha]

/-- With nothing lined up the unconstrained transport answers the next free value (R42). -/
theorem transact_of_free (x : Transfer) {s : State} (ht : s.transport = .unconstrained) (ha : s.answers = []) :
    transact x s = (Config.freeAnswer s.draws, { s with draws := s.draws + 1 }) := by
  simp only [transact, ht, ha]

/-- An access is a matter of the transport's answer and the environment after it alone. -/
theorem access_congr {x : Transfer} {s s' : State} (h : transact x s = transact x s') : access x s = access x s' := by
  simp only [access, h]

/-- An access that the transport has not answered yet is in progress, and nothing else has happened (R186). -/
theorem access_of_pending (x : Transfer) {s : State} {later : List Answer} (ht : s.transport = .unconstrained)
    (ha : s.answers = .pending :: later) : access x s = { s with answers := later, inFlight := some x } := by
  simp only [access, transact_of_linedUp x ht ha]

/-- An access treats a free answer as it treats the same answer lined up (R42). -/
theorem access_of_free (x : Transfer) {s : State} (ht : s.transport = .unconstrained) (ha : s.answers = []) :
    access x s = access x { s with answers := [Config.freeAnswer s.draws], draws := s.draws + 1 } := by
  apply access_congr
  have lined := transact_of_linedUp x (s := { s with answers := [Config.freeAnswer s.draws], draws := s.draws + 1 }) ht rfl
  rw [transact_of_free x ht ha, lined, ← ha]

/-- Settles O42: the step of a waiting command and the command itself are the same access. -/
theorem ramAccessWaitsForTheTransport : Obligations.RamAccessWaitsForTheTransport := by
  refine ⟨fun s offset v => ⟨mapOffset offset, mapOffset_toNat offset, ?_, ?_, fun later ht ha => ?_⟩, ?_, ?_⟩
  · rw [step_of_inFlight rfl, exec_ramrd]
  · rw [step_of_inFlight rfl, exec_ramwr]
  · rw [exec_ramrd, exec_ramwr, access_of_pending _ ht ha, access_of_pending _ ht ha]
    exact ⟨rfl, rfl⟩
  · intro s x later ht hf ha
    rw [step_of_inFlight hf, access_of_pending x ht ha, ← hf]
  · intro s i ht ha hop
    cases i with
    | ramrd offset => rw [exec_ramrd, exec_ramrd, access_of_free _ ht ha]
    | ramwr offset v => rw [exec_ramwr, exec_ramwr, access_of_free _ ht ha]
    | _ => simp [Instr.op] at hop

/-! ## No state survives a command -/

/-- What an access adds to the responses, and whether it is in progress afterwards, is a matter of the transport's answer
alone (R10). -/
theorem access_adds (x : Transfer) (a : Answer) :
    ∃ (new : List Response) (waiting : Option Transfer), ∀ s, (transact x s).1 = a →
      (access x s).responses = new ++ s.responses ∧ (access x s).inFlight = waiting := by
  cases a with
  | pending =>
    refine ⟨[], some x, fun s h => ?_⟩
    obtain ⟨-, e⟩ | ⟨_, _, h', -⟩ := access_cases x s
    · simp [e]
    · rw [h] at h'; cases h'
  | reply status bytes =>
    obtain ⟨r, hr⟩ := finish_adds x status bytes
    refine ⟨[r], none, fun s h => ?_⟩
    obtain ⟨h', -⟩ | ⟨_, _, h', e⟩ := access_cases x s
    · rw [h] at h'; cases h'
    · rw [h] at h'; cases h'
      simp [e, hr]

/-- Two accesses that get the same answer add the same responses and are in progress alike. -/
theorem access_adds_alike {x : Transfer} {s s' : State} (h : (transact x s).1 = (transact x s').1) :
    ∃ new : List Response, (access x s).responses = new ++ s.responses ∧ (access x s').responses = new ++ s'.responses ∧
      (access x s).inFlight = (access x s').inFlight := by
  obtain ⟨new, waiting, hadd⟩ := access_adds x (transact x s').1
  obtain ⟨hr, hf⟩ := hadd s h
  obtain ⟨hr', hf'⟩ := hadd s' rfl
  exact ⟨new, hr, hr', hf.trans hf'.symm⟩

/-- Of the parameters a decoded date depends on `DOW_FALLBACK` only (R116). -/
theorem decodeDate_congr {p p' : Params} (h : p.dowFallback = p'.dowFallback) (b0 b1 b2 b3 : Byte) :
    decodeDate p b0 b1 b2 b3 = decodeDate p' b0 b1 b2 b3 := by
  simp only [decodeDate, decodeDow, fallbackOrdinal, h]

/-- The eight operations without a transaction give the same response in all states of one `DOW_FALLBACK` (R10, R35). -/
theorem exec_responds_alike {i : Instr} {s s' : State} (hrd : i.op ≠ .ramrd) (hwr : i.op ≠ .ramwr)
    (hd : s.params.dowFallback = s'.params.dowFallback) :
    ∃ st p, exec i s = .next (respond st p s) ∧ exec i s' = .next (respond st p s') := by
  cases i with
  | clamp value lo hi =>
    simp only [exec, execClamp]
    split <;> exact ⟨_, _, rfl, rfl⟩
  | timeenc second minute hour osc mode meridian =>
    simp only [exec, execTimeenc]
    split <;> exact ⟨_, _, rfl, rfl⟩
  | datedec b0 b1 b2 b3 =>
    simp only [exec, execDatedec, decodeDate_congr hd]
    exact ⟨_, _, rfl, rfl⟩
  | ramrd offset => exact absurd rfl hrd
  | ramwr offset value => exact absurd rfl hwr
  | _ => exact ⟨_, _, rfl, rfl⟩

/-- Settles O51: the step of a waiting command is its access. -/
theorem waitingCommandsDoNotDependOnHistory : Obligations.WaitingCommandsDoNotDependOnHistory := by
  intro x s s' t t' hf hf' h ht ht'
  rw [step_of_inFlight hf] at ht
  rw [step_of_inFlight hf'] at ht'
  cases ht
  cases ht'
  exact access_adds_alike h

/-- Settles O18: a command is an access, which goes by the transport's answer, or one response, which goes by the command and
`DOW_FALLBACK`. -/
theorem responsesDoNotDependOnHistory : Obligations.ResponsesDoNotDependOnHistory := by
  intro i s s' t t' ht ht' hd hrd hwr
  have alike := fun hnrd hnwr => exec_responds_alike (i := i) hnrd hnwr hd
  cases i with
  | ramrd offset =>
    rw [exec_ramrd] at ht ht'
    cases ht
    cases ht'
    obtain ⟨new, hr, hr', hf⟩ := access_adds_alike (hrd offset rfl)
    exact ⟨new, hr, hr', fun _ => hf⟩
  | ramwr offset v =>
    rw [exec_ramwr] at ht ht'
    cases ht
    cases ht'
    obtain ⟨new, hr, hr', hf⟩ := access_adds_alike (hwr offset v rfl)
    exact ⟨new, hr, hr', fun _ => hf⟩
  | _ =>
    obtain ⟨st, p, he, he'⟩ := alike (by simp [Instr.op]) (by simp [Instr.op])
    cases he.symm.trans ht
    cases he'.symm.trans ht'
    exact ⟨[⟨st, p⟩], rfl, rfl, by simp [Instr.op]⟩

end Sys2Proof.Machine
end

section
/-!
PROOFS. The register space and the transport (spec/20_memory.md): which operations issue a transaction (R35), aliasing in the
window (R34), the reference transport and its failing variant (R49), and the order in which commands run (R43).
-/

namespace Sys2Proof.Machine

/-! ## Operations without a transaction -/

/-- MAPOFF answers the mapped address and nothing else happens (R130). -/
theorem exec_mapoff (offset : BitVec 16) (s : State) :
    exec (.mapoff offset) s = .next (respond .ok (payloadByte (mapOffset offset)) s) := rfl

/-- Settles O20: of the two things `exec` can do, these operations do the one without an access. -/
theorem eightOperationsOnlyRespond : Obligations.EightOperationsOnlyRespond := by
  intro i s hrd hwr
  obtain ⟨-, -, st, p, he, -⟩ | ⟨hrd' | hwr', -⟩ := exec_cases i s
  · exact ⟨⟨st, p⟩, he⟩
  · exact absurd hrd' hrd
  · exact absurd hwr' hwr

/-! ## Aliasing in the window -/

/-- Two offsets are mapped to one address exactly when they are congruent modulo the window's size (R34). -/
theorem mapOffset_eq_iff {a b : BitVec 16} : mapOffset a = mapOffset b ↔ a.toNat % 56 = b.toNat % 56 := by
  rw [← BitVec.toNat_inj, mapOffset_toNat, mapOffset_toNat, Nat.add_left_cancel_iff]

/-- As a number, the payload of a byte is the byte (R55). -/
theorem payloadByte_toNat (b : Byte) : (payloadByte b).toNat = b.toNat := by
  simp only [payloadByte, BitVec.toNat_append, BitVec.toNat_ofNat, Nat.zero_mod, Nat.zero_shiftLeft, Nat.zero_or]

/-- The payload of a byte is the byte with zeros above it (R55). -/
theorem payloadByte_eq_setWidth (b : Byte) : payloadByte b = b.setWidth 32 := by
  apply BitVec.eq_of_toNat_eq
  rw [payloadByte_toNat, BitVec.toNat_setWidth_of_le (by decide)]

/-- Different bytes have different payloads. -/
theorem payloadByte_inj {b c : Byte} : payloadByte b = payloadByte c ↔ b = c := by
  rw [← BitVec.toNat_inj, payloadByte_toNat, payloadByte_toNat, BitVec.toNat_inj]

/-- Two responses to the same state are the same exactly when status and payload are. -/
theorem respond_inj {st st' : Status} {p p' : BitVec 32} {s : State} :
    respond st p s = respond st' p' s ↔ st = st' ∧ p = p' := by
  simp [respond]

/-- Settles O39: RAMRD, RAMWR and MAPOFF see the offset through `mapOffset` only, and MAPOFF's payload shows it. -/
theorem offsetsAliasModulo56 : Obligations.OffsetsAliasModulo56 := by
  intro a b v s
  constructor
  · intro h
    have hab : mapOffset a = mapOffset b := mapOffset_eq_iff.mpr h
    simp only [exec_ramrd, exec_ramwr, hab, and_self]
  · simp only [exec_mapoff, Host.Outcome.next.injEq, respond_inj, true_and, payloadByte_inj, mapOffset_eq_iff]

/-! ## A transaction that is answered at once -/

/-- An access that the transport answers is finished with the answer. -/
theorem access_of_reply {x : Transfer} {s s' : State} {status : Byte} {bytes : List Byte}
    (h : transact x s = (.reply status bytes, s')) : access x s = finish x status bytes s' := by
  simp only [access, h]

/-- A read that is acknowledged and delivered a byte answers OK with the first one (R133). -/
theorem finish_read_delivered (a b : Byte) (more : List Byte) (s : State) :
    finish (.read a) 0 (b :: more) s = { s with
      inFlight := none, responses := ⟨.ok, b.setWidth 32⟩ :: s.responses,
      busLog := [.beginTransaction s.params.devAddr, .writeByte a, .endTransaction false,
        .requestBytes s.params.devAddr 1 true, .readByte] :: s.busLog } := by
  rw [← payloadByte_eq_setWidth]
  rfl

/-- A read whose address phase is not acknowledged requests no byte and answers TRANSPORT_FAILURE (R134). -/
theorem finish_read_unacknowledged {status : Byte} (h : status ≠ 0) (a : Byte) (bytes : List Byte) (s : State) :
    finish (.read a) status bytes s = { s with
      inFlight := none, responses := ⟨.transportFailure, 0⟩ :: s.responses,
      busLog := [.beginTransaction s.params.devAddr, .writeByte a, .endTransaction false] :: s.busLog } := by
  have none_read : memReadResult status bytes = none := if_pos h
  simp only [finish, none_read, Transfer.calls, if_neg h, raise, respond, List.append_nil]

/-- A write answers OK or TRANSPORT_FAILURE by its status, with a zero payload, and makes the same calls (R135, R136). -/
theorem finish_write (a v status : Byte) (bytes : List Byte) (s : State) :
    finish (.write a v) status bytes s = { s with
      inFlight := none, responses := ⟨if status = 0 then .ok else .transportFailure, 0⟩ :: s.responses,
      busLog := [.beginTransaction s.params.devAddr, .writeByte a, .writeByte v, .endTransaction true] :: s.busLog } := by
  by_cases h : status = 0 <;> simp only [finish, Transfer.calls, raise, respond, h, if_true, if_false]

/-! ## The reference transport and its failing variant -/

/-- The reference transport delivers the byte of P at the address (R49). -/
theorem transact_read_of_reference (a : Byte) {s : State} (ht : s.transport = .reference) :
    transact (.read a) s = (.reply 0 [s.mem.read a.toNat], s) := by
  simp only [transact, ht]

/-- The reference transport writes the byte into P (R49). -/
theorem transact_write_of_reference (a v : Byte) {s : State} (ht : s.transport = .reference) :
    transact (.write a v) s = (.reply 0 [], { s with mem := s.mem.write a.toNat v }) := by
  simp only [transact, ht]

/-- The failing variant acknowledges nothing and changes nothing (R49). -/
theorem transact_of_failing (x : Transfer) {s : State} (ht : s.transport = .failing) :
    transact x s = (.reply 1 [], s) := by
  simp only [transact, ht]

/-- A mapped address is one of the 64 of P (R131). -/
theorem mapOffset_lt_spaceSize (offset : BitVec 16) : (mapOffset offset).toNat < Config.spaceSize := by
  rw [mapOffset_toNat]
  simp only [Config.spaceSize]
  omega

/-- Settles O43: each command is one access, which these transports answer at once; P after a write is read after write. -/
theorem ramOperationsOnTheReferenceTransport : Obligations.RamOperationsOnTheReferenceTransport := by
  intro offset v s
  refine ⟨mapOffset offset, mapOffset_toNat offset, fun ht => ⟨?_, fun hwf => ?_⟩, fun ht => ⟨?_, ?_⟩⟩
  · rw [exec_ramrd, access_of_reply (transact_read_of_reference _ ht), finish_read_delivered]
  · refine ⟨s.mem.write (mapOffset offset).toNat v, ?_, Memory.wf_write hwf (mapOffset_lt_spaceSize offset), ?_,
      fun b hb => ?_⟩
    · rw [exec_ramwr, access_of_reply (transact_write_of_reference _ v ht), finish_write, if_pos rfl]
    · rw [Memory.read_write hwf, if_pos rfl]
    · rw [Memory.read_write hwf, if_neg hb]
  · rw [exec_ramrd, access_of_reply (transact_of_failing _ ht), finish_read_unacknowledged (by decide)]
  · rw [exec_ramwr, access_of_reply (transact_of_failing _ ht), finish_write, if_neg (by decide)]

/-! ## The order in which commands run -/

/-- An access adds at most one response and at most one finished transaction, and changes none (R50, R137). -/
theorem access_adds_at_most_one (x : Transfer) (s : State) :
    ((access x s).responses = s.responses ∨ ∃ r, (access x s).responses = r :: s.responses) ∧
    ((access x s).busLog = s.busLog ∨ ∃ calls, (access x s).busLog = calls :: s.busLog) := by
  obtain ⟨-, ⟨st, p, hr, -⟩, status, bytes, hb⟩ | ⟨-, hr, hb⟩ := access_ends_or_waits x s
  · exact ⟨.inr ⟨_, hr⟩, .inr ⟨_, hb⟩⟩
  · exact ⟨.inl hr, .inl hb⟩

/-- Settles O10: only the idle CORE takes an input, and of all a step can do only a response and an access add to the
records. -/
theorem commandsRunOneAtATimeInOrder : Obligations.CommandsRunOneAtATimeInOrder := by
  intro s t h
  obtain ⟨x, -, rfl⟩ | ⟨hf, hidle⟩ := step_cases h
  · exact ⟨.inl (access_inputs x s), fun _ => access_inputs x s, access_adds_at_most_one x s⟩
  · obtain ⟨-, rfl⟩ | ⟨_, rest, _, _, hi, rfl, -⟩ | ⟨w, rest, _, x, hi, -, -, -, rfl⟩ | ⟨_, _, rest, hi, -, rfl⟩ |
      ⟨rest, hi, rfl⟩ := hidle
    · exact ⟨.inl rfl, absurd hf, .inl rfl, .inl rfl⟩
    · exact ⟨.inr ⟨_, hi⟩, absurd hf, .inr ⟨_, rfl⟩, .inl rfl⟩
    · have taken : s.inputs = .command w :: (access x { s with inputs := rest }).inputs := by rw [hi, access_inputs]
      exact ⟨.inr ⟨_, taken⟩, absurd hf, access_adds_at_most_one x _⟩
    · exact ⟨.inr ⟨_, hi⟩, absurd hf, .inl rfl, .inl rfl⟩
    · exact ⟨.inr ⟨_, hi⟩, absurd hf, .inl rfl, .inl rfl⟩

end Sys2Proof.Machine
end

section
/-!
PROOFS. The encoding of commands and responses (spec/30_encoding.md): a legal word is the encoding of its one meaning (R50 to
R54), match and mask (R53), the illegal words (R57), one response per command (R50), the assembler (R58, R59).
-/

namespace Sys2Proof

/-! ## The fixed bits of a word -/

/-- The word has the operation's `op`, a zero `rsv`, and zeros in the bits of `arg` that the operation's format leaves unused
(R50 to R52). -/
def FixedBitsOf (o : Op) (w : CommandWord) : Prop :=
  opField w = o.code ∧ rsvField w = 0 ∧ argField w >>> o.argWidth = 0

/-- As a number, the unused bits of `arg` are what is left of it above the format's bits. -/
theorem unusedArg_toNat (w : CommandWord) (k : Nat) : (argField w >>> k).toNat = w.toNat % 2 ^ 48 / 2 ^ k := by
  rw [argField, BitVec.toNat_ushiftRight, extract_toNat, Nat.shiftRight_eq_div_pow, Nat.pow_zero, Nat.div_one]

/-- Such a word is, as a number, the operation's code in bits 63:60 over the operands. -/
theorem fixedBitsOf_iff_toNat {o : Op} {w : CommandWord} :
    FixedBitsOf o w ↔ w.toNat = o.code.toNat * 2 ^ 60 + w.toNat % 2 ^ o.argWidth := by
  have hw := w.isLt
  rw [FixedBitsOf, ← BitVec.toNat_inj, ← BitVec.toNat_inj, ← BitVec.toNat_inj, unusedArg_toNat, opField, rsvField,
    extract_toNat, extract_toNat]
  cases o <;> simp only [Op.code, Op.argWidth, BitVec.reduceToNat] <;> omega

/-- An encoded word has the fixed bits of its operation. -/
theorem fixedBitsOf_encode (i : Instr) : FixedBitsOf i.op (encode i) := by
  have operands_lt := argNumber_lt i
  rw [fixedBitsOf_iff_toNat, encode_toNat]
  cases h : i.op <;> simp only [h, Op.argWidth] at operands_lt ⊢ <;> omega

/-- No two operations have one code (R51). -/
theorem Op.code_inj {o o' : Op} : o.code = o'.code ↔ o = o' := by
  cases o <;> cases o' <;> decide

/-- The fixed bits name the operation. -/
theorem FixedBitsOf.unique {o o' : Op} {w : CommandWord} (h : FixedBitsOf o w) (h' : FixedBitsOf o' w) : o = o' :=
  Op.code_inj.mp (h.1.symm.trans h'.1)

/-! ## The decoder, by the fixed bits -/

/-- The opcode map read the other way finds the operation of a code (R51). -/
theorem ofCode?_eq_some_iff {c : BitVec 4} {o : Op} : Op.ofCode? c = some o ↔ c = o.code := by
  revert c
  cases o <;> decide

/-- The codes that select nothing are 0x0 and 0xB to 0xF (R51, R57). -/
theorem ofCode?_eq_none_iff {c : BitVec 4} : Op.ofCode? c = none ↔ c.toNat = 0x0 ∨ 0xB ≤ c.toNat := by
  revert c
  decide

/-- A word with an operation's fixed bits is decoded operand by operand. -/
theorem decode_of_fixedBitsOf {o : Op} {w : CommandWord} (h : FixedBitsOf o w) : decode w = decodeOperands o w := by
  obtain ⟨hop, hrsv, harg⟩ := h
  simp [decode, ofCode?_eq_some_iff.mpr hop, hrsv, harg]

/-- The decoder gives an instruction only of a word with some operation's fixed bits. -/
theorem fixedBitsOf_of_decode {w : CommandWord} {i : Instr} (h : decode w = .ok i) : ∃ o, FixedBitsOf o w := by
  unfold decode at h
  split at h
  · cases h
  · next o ho =>
    split_ifs at h with hrsv harg
    exact ⟨o, ofCode?_eq_some_iff.mp ho, not_not.mp hrsv, not_not.mp harg⟩

/-- A bit of a word as a number. -/
theorem getLsbD_toNat {n : Nat} (w : BitVec n) (k : Nat) : (w.getLsbD k).toNat = w.toNat / 2 ^ k % 2 := by
  rw [BitVec.getLsbD, Nat.toNat_testBit]

/-- A bit of a word is a given bit exactly when they are one number. -/
theorem getLsbD_eq_iff {n : Nat} {w : BitVec n} {k : Nat} {b : Bool} : w.getLsbD k = b ↔ w.toNat / 2 ^ k % 2 = b.toNat := by
  rw [← getLsbD_toNat]
  cases w.getLsbD k <;> cases b <;> decide

/-- What `decodeOperands` gives is an instruction of the operation, well formed, and its operands are the operand bits of the
word (R52, R57 item 4). -/
theorem decodeOperands_spec {o : Op} {w : CommandWord} {i : Instr} (h : decodeOperands o w = .ok i) :
    i.op = o ∧ WellFormed i ∧ argNumber i = w.toNat % 2 ^ o.argWidth := by
  cases o with
  | timeenc =>
    simp only [decodeOperands] at h
    split_ifs at h with hm
    cases h
    refine ⟨rfl, bne_iff_ne.mpr hm, ?_⟩
    simp only [argNumber, Op.argWidth, extract_toNat, getLsbD_toNat]
    omega
  | _ =>
    cases h
    refine ⟨rfl, rfl, ?_⟩
    simp only [argNumber, Op.argWidth, extract_toNat]
    omega

/-- Only a TIMEENC word with meridian `0b11` has operands that are refused (R57 item 4). -/
theorem exists_decodeOperands_iff {o : Op} {w : CommandWord} :
    (∃ i, decodeOperands o w = .ok i) ↔ (o = .timeenc → w.extractLsb' 26 2 ≠ 0b11#2) := by
  cases o with
  | timeenc => by_cases hm : w.extractLsb' 26 2 = 0b11#2 <;> simp [decodeOperands, hm]
  | _ => simp [decodeOperands]

/-- The decoder gives an instruction of an operation exactly when the word has the operation's fixed bits and, for TIMEENC, a
meridian. -/
theorem exists_decode_of_op_iff {o : Op} {w : CommandWord} :
    (∃ i, decode w = .ok i ∧ i.op = o) ↔ FixedBitsOf o w ∧ (o = .timeenc → w.extractLsb' 26 2 ≠ 0b11#2) := by
  constructor
  · rintro ⟨i, hd, hop⟩
    obtain ⟨o', hbits⟩ := fixedBitsOf_of_decode hd
    rw [decode_of_fixedBitsOf hbits] at hd
    obtain ⟨rfl, -, -⟩ := decodeOperands_spec hd
    subst hop
    exact ⟨hbits, exists_decodeOperands_iff.mp ⟨i, hd⟩⟩
  · rintro ⟨hbits, hm⟩
    obtain ⟨i, hi⟩ := exists_decodeOperands_iff.mpr hm
    exact ⟨i, (decode_of_fixedBitsOf hbits).trans hi, (decodeOperands_spec hi).1⟩

/-! ## Encoder and decoder are inverse -/

/-- The operands of an encoded well-formed instruction are read back field by field (R52). -/
theorem decodeOperands_encode {i : Instr} (hwf : WellFormed i) : decodeOperands i.op (encode i) = .ok i := by
  have word := encode_toNat i
  cases i with
  | timeenc second minute hour osc mode meridian =>
    have osc_lt := osc.toNat_lt
    have mode_lt := mode.toNat_lt
    simp only [argNumber, Instr.op, Op.code, BitVec.reduceToNat] at word
    have meridian_read : (encode (.timeenc second minute hour osc mode meridian)).extractLsb' 26 2 = meridian := by
      rw [← BitVec.toNat_inj, extract_toNat]
      omega
    simp only [decodeOperands, Instr.op, meridian_read]
    rw [if_neg (bne_iff_ne.mp hwf)]
    simp only [Except.ok.injEq, Instr.timeenc.injEq, getLsbD_eq_iff, ← BitVec.toNat_inj, extract_toNat, and_true]
    omega
  | _ =>
    simp only [argNumber, Instr.op, Op.code, BitVec.reduceToNat] at word
    simp only [decodeOperands, Instr.op, Except.ok.injEq, Instr.encbcd.injEq, Instr.decbcd.injEq, Instr.clamp.injEq,
      Instr.timedec.injEq, Instr.dateenc.injEq, Instr.datedec.injEq, Instr.mapoff.injEq, Instr.ramrd.injEq,
      Instr.ramwr.injEq, ← BitVec.toNat_inj, extract_toNat]
    omega

end Sys2Proof

namespace Sys2Proof.Machine

/-- Settles O2: the encoded word has the fixed bits of its operation, and its operands are read back. -/
theorem decodeOfEncodeIsIdentity : Obligations.DecodeOfEncodeIsIdentity :=
  fun i hwf => (decode_of_fixedBitsOf (fixedBitsOf_encode i)).trans (decodeOperands_encode hwf)

/-- Settles O3: the fixed bits and the operands, which are all of the word, are those of its encoding. -/
theorem encodeOfDecodeIsIdentity : Obligations.EncodeOfDecodeIsIdentity := by
  intro w i hd
  obtain ⟨o, hbits⟩ := fixedBitsOf_of_decode hd
  rw [decode_of_fixedBitsOf hbits] at hd
  obtain ⟨rfl, hwf, operands⟩ := decodeOperands_spec hd
  refine ⟨BitVec.eq_of_toNat_eq ?_, hwf⟩
  rw [encode_toNat, operands]
  exact (fixedBitsOf_iff_toNat.mp hbits).symm

/-- A word decodes to an instruction exactly when it is the instruction's encoding. -/
theorem decode_eq_ok_iff {w : CommandWord} {i : Instr} : decode w = .ok i ↔ encode i = w ∧ WellFormed i :=
  ⟨encodeOfDecodeIsIdentity w i, fun ⟨hw, hwf⟩ => hw ▸ decodeOfEncodeIsIdentity i hwf⟩

/-- Settles O4: each word is the encoding of its instruction. -/
theorem wordsWrittenFromTheTablesDecode : Obligations.WordsWrittenFromTheTablesDecode := by
  unfold Obligations.WordsWrittenFromTheTablesDecode
  simp only [decode_eq_ok_iff]
  decide

/-! ## Match and mask -/

/-- A word meets the match and mask of a row exactly when it has the fixed bits of the row's operation (R53). -/
theorem meets_iff_fixedBitsOf {row : OpcodeRow} (hrow : row ∈ opcodeTable) {w : CommandWord} :
    w &&& row.mask = row.pattern ↔ FixedBitsOf row.op w := by
  obtain ⟨hmask, hpattern⟩ := Laws.EncodeMeetsItsRow.row_shape row hrow
  have word := Nat.div_add_mod' w.toNat (2 ^ row.op.argWidth)
  rw [fixedBitsOf_iff_toNat, ← BitVec.toNat_inj, hmask, Laws.EncodeMeetsItsRow.and_mask, hpattern]
  omega

/-- An operation has one row in the table. -/
theorem row_unique : ∀ r₁ ∈ opcodeTable, ∀ r₂ ∈ opcodeTable, r₁.op = r₂.op → r₁ = r₂ := by decide

/-- Settles O1: match and mask ask for the fixed bits of an operation, which are what the decoder asks for and which no two
operations share. -/
theorem decoderSelectsByMatchAndMask : Obligations.DecoderSelectsByMatchAndMask := by
  intro w
  constructor
  · intro row hrow
    rw [exists_decode_of_op_iff, meets_iff_fixedBitsOf hrow]
  · intro r₁ h₁ r₂ h₂ hw₁ hw₂
    rw [meets_iff_fixedBitsOf h₁] at hw₁
    rw [meets_iff_fixedBitsOf h₂] at hw₂
    exact row_unique r₁ h₁ r₂ h₂ (hw₁.unique hw₂)

/-! ## Illegal words -/

/-- A word is refused exactly when it decodes to nothing. -/
theorem decode_refuses_iff {w : CommandWord} : (∃ e, decode w = .error e) ↔ ¬ ∃ i, decode w = .ok i := by
  cases decode w <;> simp

/-- R57 item 3 for a word of a known operation: the table lists the nine formats that leave bits unused; CLAMP leaves none
(R52). -/
theorem unusedArgBits_iff {o : Op} {w : CommandWord} (hop : opField w = o.code) :
    (∃ p ∈ [(0x1, 8), (0x2, 16), (0x4, 28), (0x5, 24), (0x6, 32), (0x7, 32), (0x8, 16), (0x9, 16), (0xA, 24)],
      (w.extractLsb' 60 4).toNat = p.1 ∧ w.toNat % 2 ^ 48 / 2 ^ p.2 ≠ 0) ↔ argField w >>> o.argWidth ≠ 0 := by
  have hop' : (w.extractLsb' 60 4).toNat = o.code.toNat := congrArg _ hop
  rw [hop', ne_eq (argField w >>> o.argWidth), ← BitVec.toNat_inj, unusedArg_toNat]
  cases o <;> simp [Op.code, Op.argWidth]

/-- The codes that R57 item 1 leaves are those of the operations (R51). -/
theorem exists_code_iff {c : BitVec 4} : (∃ o : Op, c = o.code) ↔ ¬ (c.toNat = 0x0 ∨ 0xB ≤ c.toNat) := by
  simp only [← ofCode?_eq_none_iff, ← ofCode?_eq_some_iff, Option.ne_none_iff_exists']

/-- The legal words of R57: those with the fixed bits of an operation and, for TIMEENC, a meridian. -/
theorem not_illegalByR57_iff {w : CommandWord} :
    ¬ illegalByR57 w ↔ ∃ o, FixedBitsOf o w ∧ (o = .timeenc → w.extractLsb' 26 2 ≠ 0b11#2) := by
  rw [illegalByR57]
  constructor
  · intro h
    obtain ⟨o, hop⟩ := exists_code_iff.mpr fun hcode => h (.inl hcode)
    have hrsv : rsvField w = 0 := by_contra fun hrsv => h (.inr (.inl hrsv))
    have harg : argField w >>> o.argWidth = 0 :=
      by_contra fun harg => h (.inr (.inr (.inl ((unusedArgBits_iff hop).mpr harg))))
    refine ⟨o, ⟨hop, hrsv, harg⟩, ?_⟩
    rintro rfl hm
    exact h (.inr (.inr (.inr ⟨congrArg BitVec.toNat hop, hm⟩)))
  · rintro ⟨o, ⟨hop, hrsv, harg⟩, hm⟩ (hcode | hrsv' | harg' | ⟨hcode, hm'⟩)
    · exact exists_code_iff.mp ⟨o, hop⟩ hcode
    · exact hrsv' hrsv
    · exact (unusedArgBits_iff hop).mp harg' harg
    · exact hm (Op.code_inj.mp (hop.symm.trans (BitVec.eq_of_toNat_eq hcode))) hm'

/-- The decoder gives an instruction exactly of the words that R57 leaves. -/
theorem exists_decode_iff {w : CommandWord} : (∃ i, decode w = .ok i) ↔ ¬ illegalByR57 w := by
  rw [not_illegalByR57_iff]
  simp only [← exists_decode_of_op_iff]
  exact ⟨fun ⟨i, hd⟩ => ⟨i.op, i, hd, rfl⟩, fun ⟨_, i, hd, _⟩ => ⟨i, hd⟩⟩

/-- The decoder refuses exactly the illegal words of R57. -/
theorem decode_error_iff {w : CommandWord} : (∃ e, decode w = .error e) ↔ illegalByR57 w := by
  rw [decode_refuses_iff, exists_decode_iff, not_not]

/-- An illegal word gives ILLEGAL_COMMAND and nothing else is examined (R57, R157). -/
theorem runCommand_of_illegal {w : CommandWord} (h : illegalByR57 w) (s : State) :
    runCommand w s = .next (raise .illegalCommand s) := by
  obtain ⟨e, he⟩ := decode_error_iff.mpr h
  simp only [runCommand, he]

/-- Settles O6: the decoder refuses what is illegal by R57, and the step of such a word raises ILLEGAL_COMMAND. -/
theorem illegalWordsAnswerIllegalCommand : Obligations.IllegalWordsAnswerIllegalCommand := by
  refine ⟨fun w => decode_error_iff, .inl (.inl rfl), .inl (.inr (by decide)), ?_⟩
  intro s w rest hf hi hw
  rw [step_of_command hf hi, runCommand_of_illegal hw]
  rfl

/-- Settles O30: the meridian field `0b11` spells no meridian, and `execTimeenc` raises ILLEGAL_COMMAND. -/
theorem timeencWithoutMeridianIsIllegal : Obligations.TimeencWithoutMeridianIsIllegal := by
  intro second minute hour osc mode s
  have spells_none : Meridian.ofCode? 0b11 = none := rfl
  simp only [exec, execTimeenc, spells_none]
  rfl

/-! ## Responses -/

/-- An access ends with one response, or is in progress with none (R50). -/
theorem access_responds_or_waits (x : Transfer) (s : State) :
    ((access x s).inFlight = none ∧ ∃ r, (access x s).responses = r :: s.responses) ∨
    ((access x s).inFlight = some x ∧ (access x s).responses = s.responses) := by
  obtain ⟨hdone, ⟨_, _, hr, -⟩, -⟩ | ⟨hwaits, hr, -⟩ := access_ends_or_waits x s
  · exact .inl ⟨hdone, _, hr⟩
  · exact .inr ⟨hwaits, hr⟩

/-- Settles O11: of all a step can do, taking a command is one response or one access, and an access ends with one response or
waits. -/
theorem exactlyOneResponsePerCommand : Obligations.ExactlyOneResponsePerCommand := by
  constructor
  · intro s t w rest hf hi h
    obtain ⟨x, hx, -⟩ | ⟨-, hidle⟩ := step_cases h
    · simp [hf] at hx
    obtain ⟨hi', -⟩ | ⟨_, _, st, p, hi', rfl, -⟩ | ⟨_, _, i, x, hi', hd, hop, -, rfl⟩ | ⟨_, _, _, hi', -⟩ | ⟨_, hi', -⟩ :=
      hidle <;> rw [hi] at hi' <;> cases hi'
    · exact ⟨rfl, .inl ⟨hf, _, rfl⟩⟩
    · refine ⟨access_inputs _ _, ?_⟩
      obtain hdone | ⟨hwaits, hr⟩ := access_responds_or_waits x { s with inputs := rest }
      · exact .inl hdone
      · exact .inr ⟨by simp [hwaits], hr, i, hd, hop⟩
  · intro s t x hf h
    cases (step_of_inFlight hf).symm.trans h
    exact access_responds_or_waits x s

/-- Settles O21: the word is the status code over the payload. -/
theorem responseWordLayout : Obligations.ResponseWordLayout := by
  refine ⟨fun r => ?_, rfl, rfl, rfl, rfl⟩
  have word : r.word.toNat = r.status.code.toNat * 2 ^ 32 + r.payload.toNat := append_toNat _ _
  simp only [← BitVec.toNat_inj, extract_toNat, word]
  omega

/-! ## The assembler -/

/-- The assembler's meridian names spell a meridian (R58, R19). -/
theorem meridian?_ne {cs : List Char} {m : BitVec 2} (h : meridian? cs = some m) : m ≠ 0b11#2 := by
  unfold meridian? at h
  split at h <;> cases h <;> decide

/-- The meridian of an assembled TIMEENC is one of the names (R58). -/
theorem meridian_of_assembleOperands {m : Mnemonic} {ops : List (List Char)} {second minute hour : Byte} {osc mode : Bool}
    {meridian : BitVec 2} (h : assembleOperands m ops = some (.timeenc second minute hour osc mode meridian)) :
    ∃ cs, meridian? cs = some meridian := by
  unfold assembleOperands at h
  split at h <;>
    simp only [Pseudo.expand, Option.bind_eq_bind, Option.bind_eq_some_iff, Option.some.injEq, Instr.timeenc.injEq,
      reduceCtorEq, and_false, exists_false] at h
  next =>
    obtain ⟨_, -, _, -, _, -, _, -, _, -, m, hm, -, -, -, -, -, rfl⟩ := h
    exact ⟨_, hm⟩

/-- What the assembler gives is well formed. -/
theorem wellFormed_of_assembleOperands {m : Mnemonic} {ops : List (List Char)} {i : Instr}
    (h : assembleOperands m ops = some i) : WellFormed i := by
  cases i with
  | timeenc second minute hour osc mode meridian =>
    obtain ⟨cs, hcs⟩ := meridian_of_assembleOperands h
    exact bne_iff_ne.mpr (meridian?_ne hcs)
  | _ => rfl

/-- A line that assembles is a mnemonic and operands that fit it (R58). -/
theorem assembleOperands_of_assemble {line : List Char} {i : Instr} (h : assemble line = .ok i) :
    ∃ m ops, assembleOperands m ops = some i := by
  unfold assemble at h
  simp only at h
  split at h
  · cases h
  · split at h
    · cases h
    · next m _ =>
      split at h
      · cases h
      · next hops =>
        cases h
        exact ⟨m, _, hops⟩

/-- Settles O48: an assembled instruction is well formed, so its word decodes. -/
theorem assemblerEmitsOnlyLegalCommands : Obligations.AssemblerEmitsOnlyLegalCommands := by
  intro line i h
  obtain ⟨m, ops, hops⟩ := assembleOperands_of_assemble h
  exact exists_decode_iff.mp ⟨i, decodeOfEncodeIsIdentity i (wellFormed_of_assembleOperands hops)⟩

/-- Settles O49: the masks and the bounds of each name, as the table of R59 has them. -/
theorem pseudoInstructionsExpand : Obligations.PseudoInstructionsExpand := by
  intro b v
  simp only [Pseudo.expand, MaskName.tens, RangeName.bounds, and_self]

end Sys2Proof.Machine
end

section
/-!
PROOFS. The BCD codec (spec/40_bcd.md): the digits ENCBCD packs (R70), the digits DECBCD unpacks under its masks (R72), and
that the two undo each other on digits (R75).
-/

namespace Sys2Proof.Machine

/-! ## The two commands -/

/-- A word that meets an operation's row is decoded operand by operand (R53). -/
theorem decode_of_meets {row : OpcodeRow} (hrow : row ∈ opcodeTable) {w : CommandWord} (h : w &&& row.mask = row.pattern) :
    decode w = decodeOperands row.op w :=
  decode_of_fixedBitsOf ((meets_iff_fixedBitsOf hrow).mp h)

/-- ENCBCD answers the byte of `encodeBcd` and nothing else happens (R70). -/
theorem exec_encbcd (value : Byte) (s : State) :
    exec (.encbcd value) s
      = .next { s with responses := ⟨.ok, (encodeBcd value.toNat).setWidth 32⟩ :: s.responses } := by
  rw [← payloadByte_eq_setWidth]
  rfl

/-- DECBCD answers the number of `decodeBcd` and nothing else happens (R72). -/
theorem exec_decbcd (byte : Byte) (tm om : BitVec 4) (s : State) :
    exec (.decbcd byte tm om) s
      = .next { s with responses := ⟨.ok, (decodeBcd byte tm om).setWidth 32⟩ :: s.responses } := by
  rw [← payloadByte_eq_setWidth]
  rfl

/-- Settles O22: the byte is that of `encodeBcd`, whose tens nibble holds all of a quotient below 16. -/
theorem encbcdPacksTheDigits : Obligations.EncbcdPacksTheDigits := by
  constructor
  · intro w hw
    exact decode_of_meets (row := ⟨.encbcd, _, _⟩) (by decide) hw
  · intro value s hv
    refine ⟨encodeBcd value.toNat, exec_encbcd value s, ?_, encodeBcd_ones _⟩
    rw [encodeBcd_tens, Nat.mod_eq_of_lt (by omega)]

/-- Two nibbles are at most `15*10 + 15` (R72). -/
theorem decodeBcd_le (b : Byte) (tm om : BitVec 4) : (decodeBcd b tm om).toNat ≤ 165 := by
  have tens_lt := (b.extractLsb' 4 4 &&& tm).isLt
  have ones_lt := (b.extractLsb' 0 4 &&& om).isLt
  rw [decodeBcd_toNat]
  omega

/-- Settles O24: the payload is the number of `decodeBcd`, which a byte holds. -/
theorem decbcdUnpacksMaskedDigits : Obligations.DecbcdUnpacksMaskedDigits := by
  constructor
  · intro w hw
    exact decode_of_meets (row := ⟨.decbcd, _, _⟩) (by decide) hw
  · intro byte tm om s
    refine ⟨_, exec_decbcd byte tm om s, ?_⟩
    rw [BitVec.toNat_setWidth_of_le (by decide)]
    exact ⟨decodeBcd_toNat byte tm om, decodeBcd_le byte tm om⟩

/-! ## The round trips -/

/-- The full mask keeps a nibble. -/
theorem and_fullMask (x : BitVec 4) : x &&& 0xF = x := BitVec.and_allOnes

/-- A mask `2^k - 1` keeps every nibble up to itself (R75). -/
theorem and_lowMask {x m : BitVec 4} {k : Nat} (hm : m.toNat = 2 ^ k - 1) (hx : x.toNat ≤ m.toNat) : x &&& m = x := by
  have pow_pos := Nat.two_pow_pos k
  apply BitVec.eq_of_toNat_eq
  rw [BitVec.toNat_and, hm, Nat.and_two_pow_sub_one_of_lt_two_pow (by omega)]

/-- A number comes back through every tens mask `2^k - 1` that holds its tens. The mask keeps these in the nibble, so the
bound 99 of R75 is not asked for. -/
theorem decodeBcd_encodeBcd {n k : Nat} {tm : BitVec 4} (hm : tm.toNat = 2 ^ k - 1) (htens : n / 10 ≤ tm.toNat) :
    (decodeBcd (encodeBcd n) tm 0xF).toNat = n := by
  have tens : ((encodeBcd n).extractLsb' 4 4).toNat = n / 10 := by
    rw [encodeBcd_tens, Nat.mod_eq_of_lt (Nat.lt_of_le_of_lt htens tm.isLt)]
  rw [decodeBcd_toNat, and_lowMask hm (tens ▸ htens), and_fullMask, tens, encodeBcd_ones]
  omega

/-- A byte whose ones nibble is a digit comes back from the number it decodes to under the full masks; the tens nibble may be
anything (R75 asks for a digit there too). -/
theorem encodeBcd_decodeBcd {b : Byte} (hones : (b.extractLsb' 0 4).toNat ≤ 9) :
    encodeBcd (decodeBcd b 0xF 0xF).toNat = b := by
  apply BitVec.eq_of_toNat_eq
  rw [encodeBcd_toNat, decodeBcd_toNat, and_fullMask, and_fullMask]
  simp only [extract_toNat] at *
  omega

/-- Settles O25: each command answers what `encodeBcd` or `decodeBcd` gives, and these undo each other on digits. -/
theorem bcdRoundTrips : Obligations.BcdRoundTrips := by
  constructor
  · intro value tm k s u _ hm htens
    refine ⟨encodeBcd value.toNat, exec_encbcd value s, ?_⟩
    have back : decodeBcd (encodeBcd value.toNat) tm 0xF = value :=
      BitVec.eq_of_toNat_eq (decodeBcd_encodeBcd hm htens)
    rw [exec_decbcd, back]
  · intro b s u _ hones
    refine ⟨decodeBcd b 0xF 0xF, exec_decbcd b 0xF 0xF s, ?_⟩
    rw [exec_encbcd, encodeBcd_decodeBcd hones]

end Sys2Proof.Machine
end

section
/-!
PROOFS. The bounds clamp (spec/41_clamp.md): saturation to the nearest bound (R80), the refusal of an empty range (R82), the
laws of the clamp (R85).
-/

namespace Sys2Proof.Machine

/-! ## The command -/

/-- The payload of a CLAMP result is the 16 bits with zeros above them (R55). -/
theorem payloadHalf_eq_setWidth (h : BitVec 16) : payloadHalf h = h.setWidth 32 := by
  apply BitVec.eq_of_toNat_eq
  rw [BitVec.toNat_setWidth_of_le (by decide)]
  simp only [payloadHalf, append_toNat, BitVec.toNat_ofNat, Nat.zero_mod, Nat.zero_mul, Nat.zero_add]

/-- Over a range that is not empty the clamp is the nearest number of the range (R80). -/
theorem clamp_eq_max_min {v lo hi : Int} (hle : lo ≤ hi) : clamp v lo hi = max lo (min v hi) := by
  unfold clamp
  split
  · omega
  · split <;> omega

/-- The nearest number of the range to a word is a word: it is a bound or the word itself (R80). -/
theorem exists_toInt_eq_max_min (value lo hi : BitVec 16) :
    ∃ r : BitVec 16, r.toInt = max lo.toInt (min value.toInt hi.toInt) := by
  obtain h | h := max_choice lo.toInt (min value.toInt hi.toInt)
  · exact ⟨lo, h.symm⟩
  · obtain h' | h' := min_choice value.toInt hi.toInt
    · exact ⟨value, (h.trans h').symm⟩
    · exact ⟨hi, (h.trans h').symm⟩

/-- Over a range that is not empty CLAMP answers the word that reads as the nearest number of the range, and nothing else
happens (R80). -/
theorem exec_clamp_of_le {value lo hi r : BitVec 16} (hle : lo.toInt ≤ hi.toInt)
    (hr : r.toInt = max lo.toInt (min value.toInt hi.toInt)) (s : State) :
    exec (.clamp value lo hi) s = .next { s with responses := ⟨.ok, r.setWidth 32⟩ :: s.responses } := by
  simp only [exec, execClamp, signed_eq_toInt]
  rw [if_neg (Int.not_lt.mpr hle), clamp_eq_max_min hle, ← hr, BitVec.ofInt_toInt, payloadHalf_eq_setWidth]
  rfl

/-- Over an empty range CLAMP raises OPERAND_FAULT (R82). -/
theorem exec_clamp_of_lt {value lo hi : BitVec 16} (hlt : hi.toInt < lo.toInt) (s : State) :
    exec (.clamp value lo hi) s = .next (raise .operandFault s) := by
  simp only [exec, execClamp, signed_eq_toInt]
  rw [if_pos hlt]

/-- Settles O26: a word that reads as the nearest number of the range is the bound passed, or the value. -/
theorem clampSaturatesToTheNearestBound : Obligations.ClampSaturatesToTheNearestBound := by
  constructor
  · intro w hw
    exact decode_of_meets (row := ⟨.clamp, _, _⟩) (by decide) hw
  · intro value lo hi s hle
    obtain ⟨r, hr⟩ := exists_toInt_eq_max_min value lo hi
    refine ⟨r, exec_clamp_of_le hle hr s, ?_⟩
    simp only [← BitVec.toInt_inj]
    omega

/-! ## The statuses an operation can answer -/

/-- The status of the response that was added. -/
theorem status_of_respond {st st' : Status} {p p' : BitVec 32} {s : State}
    (h : (respond st p s).responses = ⟨st', p'⟩ :: s.responses) : st' = st := by
  rw [respond_responses, List.cons.injEq, Response.mk.injEq] at h
  exact h.1.1.symm

/-- An access that adds a response answers OK or TRANSPORT_FAILURE (R133 to R136). -/
theorem status_of_access {x : Transfer} {s : State} {st : Status} {p : BitVec 32}
    (h : (access x s).responses = ⟨st, p⟩ :: s.responses) : st = .ok ∨ st = .transportFailure := by
  obtain ⟨-, ⟨st', p', hr, hst⟩, -⟩ | ⟨-, hr, -⟩ := access_ends_or_waits x s
  · rw [hr, List.cons.injEq, Response.mk.injEq] at h
    obtain ⟨⟨rfl, -⟩, -⟩ := h
    exact hst.imp_right And.left
  · exact absurd (hr.symm.trans h) (List.cons_ne_self _ _).symm

/-- Only the meridian field `0b11` spells no meridian (R19). -/
theorem Meridian.ofCode?_eq_none_iff : ∀ c : BitVec 2, Meridian.ofCode? c = none ↔ c = 0b11#2 := by decide

/-- The statuses of R155: beside OK, each status is answered by its operations only; ILLEGAL_COMMAND only for a term that no
word spells (R57 item 4). -/
theorem status_of_exec {i : Instr} {s t : State} {st : Status} {p : BitVec 32} (h : exec i s = .next t)
    (hr : t.responses = ⟨st, p⟩ :: s.responses) :
    st = .ok ∨ (st = .operandFault ∧ i.op = .clamp) ∨ (st = .illegalCommand ∧ ¬ WellFormed i) ∨
      (st = .transportFailure ∧ (i.op = .ramrd ∨ i.op = .ramwr)) := by
  cases i with
  | clamp value lo hi =>
    cases h
    split at hr
    · exact .inr (.inl ⟨status_of_respond hr, rfl⟩)
    · exact .inl (status_of_respond hr)
  | timeenc second minute hour osc mode meridian =>
    cases h
    split at hr
    · next hm =>
      have ill_formed : ¬ WellFormed (.timeenc second minute hour osc mode meridian) :=
        fun hwf => bne_iff_ne.mp hwf (Meridian.ofCode?_eq_none_iff meridian |>.mp hm)
      exact .inr (.inr (.inl ⟨status_of_respond hr, ill_formed⟩))
    · exact .inl (status_of_respond hr)
  | ramrd offset =>
    cases h
    exact (status_of_access hr).imp_right fun hst => .inr (.inr ⟨hst, .inl rfl⟩)
  | ramwr offset value =>
    cases h
    exact (status_of_access hr).imp_right fun hst => .inr (.inr ⟨hst, .inr rfl⟩)
  | _ =>
    cases h
    exact .inl (status_of_respond hr)

/-- Settles O27: CLAMP refuses the empty range, and of the statuses of R155 only CLAMP has OPERAND_FAULT. -/
theorem clampRefusesAnEmptyRange : Obligations.ClampRefusesAnEmptyRange := by
  constructor
  · intro value lo hi s hlt
    exact exec_clamp_of_lt hlt s
  · intro i s t p h hr
    obtain hst | ⟨-, hop⟩ | ⟨hst, -⟩ | ⟨hst, -⟩ := status_of_exec h hr
    · cases hst
    · exact hop
    · cases hst
    · cases hst

/-! ## The laws -/

/-- Settles O28: the laws hold of the nearest number of the range, and two words that read alike are one. -/
theorem clampLaws : Obligations.ClampLaws := by
  constructor
  · intro v₁ v₂ lo hi s hle
    obtain ⟨r₁, h₁⟩ := exists_toInt_eq_max_min v₁ lo hi
    obtain ⟨r₂, h₂⟩ := exists_toInt_eq_max_min v₂ lo hi
    have again : r₁.toInt = max lo.toInt (min r₁.toInt hi.toInt) := by omega
    refine ⟨r₁, r₂, exec_clamp_of_le hle h₁ s, exec_clamp_of_le hle h₂ s, by omega, by omega, ?_,
      exec_clamp_of_le hle again s, by omega⟩
    rw [← BitVec.toInt_inj]
    omega
  · intro s
    exact ⟨exec_clamp_of_le (r := 59) (by decide) (by decide) s, exec_clamp_of_le (r := 0) (by decide) (by decide) s,
      exec_clamp_of_le (r := 0) (by decide) (by decide) s⟩

end Sys2Proof.Machine
end

section
/-!
PROOFS. The time register codec (spec/42_time.md): the register bytes of TIMEENC (R90 to R94), the fields of TIMEDEC (R96 to
R102), the two round trips (R95, R104), and the bits the decoders ignore (R101, and R122 of spec/43_date.md).
-/

namespace Sys2Proof.Machine

/-! ## Words, fields and responses -/

/-- Two concatenations of the same widths are equal exactly when their parts are. -/
theorem append_inj {n m : Nat} {x x' : BitVec n} {y y' : BitVec m} : x ++ y = x' ++ y' ↔ x = x' ∧ y = y' := by
  constructor
  · intro h
    have high := congrArg (BitVec.extractLsb' m n) h
    have low := congrArg (BitVec.extractLsb' 0 m) h
    rw [BitVec.extractLsb'_append_eq_left, BitVec.extractLsb'_append_eq_left] at high
    rw [BitVec.extractLsb'_append_eq_right, BitVec.extractLsb'_append_eq_right] at low
    exact ⟨high, low⟩
  · rintro ⟨rfl, rfl⟩
    rfl

/-- Three bytes are told from their bundle (R55). -/
theorem bytes3_inj {x₀ x₁ x₂ y₀ y₁ y₂ : Byte} :
    (0#8 ++ x₂ ++ x₁ ++ x₀ : BitVec 32) = 0#8 ++ y₂ ++ y₁ ++ y₀ ↔ x₀ = y₀ ∧ x₁ = y₁ ∧ x₂ = y₂ := by
  rw [append_inj, append_inj, append_inj]
  tauto

/-- A bit's word tells the bit. -/
theorem ofBool_inj {a b : Bool} : BitVec.ofBool a = BitVec.ofBool b ↔ a = b := by
  rw [← BitVec.toNat_inj, ofBool_toNat, ofBool_toNat]
  cases a <;> cases b <;> decide

/-- Two words agree in a field exactly when they agree in its bits. -/
theorem extract_eq_iff {n start len : Nat} {x y : BitVec n} :
    x.extractLsb' start len = y.extractLsb' start len ↔ ∀ i < len, x.getLsbD (start + i) = y.getLsbD (start + i) := by
  rw [BitVec.eq_of_getLsbD_eq_iff]
  refine forall₂_congr fun i hi => ?_
  rw [BitVec.getLsbD_extractLsb', BitVec.getLsbD_extractLsb', decide_eq_true hi, Bool.true_and, Bool.true_and]

/-- A field is its top bit and the field below it. -/
theorem extract_succ_eq_iff {n start len : Nat} {x y : BitVec n} :
    x.extractLsb' start (len + 1) = y.extractLsb' start (len + 1) ↔
      x.getLsbD (start + len) = y.getLsbD (start + len) ∧ x.extractLsb' start len = y.extractLsb' start len := by
  rw [extract_eq_iff, extract_eq_iff, Nat.forall_lt_succ_right, and_comm]

/-- A byte is its bit 7, its bits 6:4 and its low nibble. -/
theorem byte_eq_iff {x y : Byte} : x = y ↔
    x.getLsbD 7 = y.getLsbD 7 ∧ x.extractLsb' 4 3 = y.extractLsb' 4 3 ∧ x.extractLsb' 0 4 = y.extractLsb' 0 4 := by
  rw [getLsbD_eq_iff, getLsbD_toNat]
  simp only [← BitVec.toNat_inj, extract_toNat]
  omega

/-- Two OK responses to one state are the same outcome exactly when their payloads are. -/
theorem next_ok_inj {p p' : BitVec 32} {s : State} :
    (.next { s with responses := ⟨.ok, p⟩ :: s.responses } : Host.Outcome State Fault Refusal)
      = .next { s with responses := ⟨.ok, p'⟩ :: s.responses } ↔ p = p' := by
  simp

/-- The low half of a TIMEENC word is its operands in format T (R52). -/
theorem encode_timeenc_payload (second minute hour : Byte) (osc mode : Bool) (meridian : BitVec 2) :
    (encode (.timeenc second minute hour osc mode meridian)).extractLsb' 0 32
      = 0#4 ++ meridian ++ BitVec.ofBool mode ++ BitVec.ofBool osc ++ hour ++ minute ++ second := by
  have osc_lt := osc.toNat_lt
  have mode_lt := mode.toNat_lt
  apply BitVec.eq_of_toNat_eq
  rw [extract_toNat, encode_toNat]
  simp only [argNumber, append_toNat, ofBool_toNat, BitVec.toNat_ofNat, Instr.op, Op.code]
  omega

/-! ## The bytes of TIMEENC -/

/-- TIMEENC of a TimeValue answers its three register bytes and nothing else happens (R90). -/
theorem exec_timeenc (t : TimeValue) (s : State) :
    exec (.timeenc t.second t.minute t.hour t.oscillatorDisabled t.is12HourMode t.meridian.code) s
      = .next { s with responses := ⟨.ok, 0#8 ++ hoursByte t ++ minutesByte t ++ secondsByte t⟩ :: s.responses } := by
  obtain ⟨second, minute, hour, osc, mode, meridian⟩ := t
  cases meridian <;> rfl

/-- A meridian field other than `0b11` is the code of a meridian (R19). -/
theorem exists_meridian_code {c : BitVec 2} (hc : c ≠ 0b11#2) : ∃ m : Meridian, m.code = c := by
  obtain rfl | rfl | rfl : c = 0b00#2 ∨ c = 0b01#2 ∨ c = 0b10#2 := by revert c; decide
  · exact ⟨.notApplicable, rfl⟩
  · exact ⟨.am, rfl⟩
  · exact ⟨.pm, rfl⟩

/-- Only PM has PM's code (R19). -/
theorem beq_pm_eq (m : Meridian) : (m == .pm) = decide (m.code = 0b10#2) := by cases m <;> decide

/-- A bit over a number that stays below it. -/
theorem bit_or_toNat (b : Bool) {k : Nat} (hk : k < 8) {y : Byte} (hy : y.toNat < 2 ^ k) :
    (((BitVec.ofBool b).setWidth 8 <<< k) ||| y).toNat = b.toNat * 2 ^ k + y.toNat := by
  have place_le : 2 ^ k ≤ 2 ^ 7 := Nat.pow_le_pow_right (by decide) (by omega)
  have shifted_lt : b.toNat * 2 ^ k < 2 ^ 8 :=
    (Nat.mul_le_mul_right _ (Nat.le_of_lt_succ b.toNat_lt)).trans_lt (by omega)
  rw [BitVec.toNat_or, BitVec.toNat_shiftLeft, BitVec.toNat_setWidth_of_le (by decide), ofBool_toNat, Nat.shiftLeft_eq,
    Nat.mod_eq_of_lt shifted_lt, ← Nat.shiftLeft_eq, Nat.shiftLeft_add_eq_or_of_lt hy]

/-- The byte of a number of two digits: the tens over the ones, nothing above them (R70). -/
theorem encodeBcd_toNat_of_le {n : Nat} (hn : n ≤ 99) : (encodeBcd n).toNat = n / 10 * 2 ^ 4 + n % 10 := by
  rw [encodeBcd_toNat]
  omega

/-- The seconds register: the flag over the digits of the clamped second (R91). -/
theorem secondsByte_fields (t : TimeValue) :
    (secondsByte t).getLsbD 7 = t.oscillatorDisabled ∧
    ((secondsByte t).extractLsb' 4 3).toNat = min t.second.toNat 59 / 10 ∧
    ((secondsByte t).extractLsb' 0 4).toNat = min t.second.toNat 59 % 10 := by
  have tens_le : min t.second.toNat 59 / 10 ≤ 5 := by omega
  have digits := encodeBcd_toNat_of_le (n := min t.second.toNat 59) (by omega)
  have byte := bit_or_toNat t.oscillatorDisabled (k := 7) (by decide) (digits.trans_lt (by omega))
  have osc_lt := t.oscillatorDisabled.toNat_lt
  rw [secondsByte, clampField_eq _ (by decide), Nat.zero_max]
  simp only [getLsbD_eq_iff, extract_toNat, byte, digits]
  omega

/-- The minutes register: bit 7 zero over the digits of the clamped minute (R92). -/
theorem minutesByte_fields (t : TimeValue) :
    (minutesByte t).getLsbD 7 = false ∧
    ((minutesByte t).extractLsb' 4 3).toNat = min t.minute.toNat 59 / 10 ∧
    ((minutesByte t).extractLsb' 0 4).toNat = min t.minute.toNat 59 % 10 := by
  have tens_le : min t.minute.toNat 59 / 10 ≤ 5 := by omega
  have digits := encodeBcd_toNat_of_le (n := min t.minute.toNat 59) (by omega)
  rw [minutesByte, clampField_eq _ (by decide), Nat.zero_max]
  simp only [getLsbD_eq_iff, extract_toNat, digits, Bool.toNat_false]
  omega

/-- The hours register of 12-hour mode: bit 7 zero, the mode, PM, the digits of the clamped hour (R93). -/
theorem hoursByte_fields_of_12HourMode {t : TimeValue} (h : t.is12HourMode = true) :
    (hoursByte t).getLsbD 7 = false ∧ (hoursByte t).getLsbD 6 = true ∧
    (hoursByte t).getLsbD 5 = decide (t.meridian.code = 0b10#2) ∧
    ((hoursByte t).extractLsb' 4 1).toNat = max 1 (min t.hour.toNat 12) / 10 ∧
    ((hoursByte t).extractLsb' 0 4).toNat = max 1 (min t.hour.toNat 12) % 10 := by
  have tens_le : max 1 (min t.hour.toNat 12) / 10 ≤ 1 := by omega
  have digits := encodeBcd_toNat_of_le (n := max 1 (min t.hour.toNat 12)) (by omega)
  have pm_lt := (t.meridian == .pm).toNat_lt
  have below_mode := bit_or_toNat (t.meridian == .pm) (k := 5) (by decide) (digits.trans_lt (by omega))
  have byte := bit_or_toNat true (k := 6) (by decide) (below_mode.trans_lt (by omega))
  have mode_bit : 1#8 <<< 6 = (BitVec.ofBool true).setWidth 8 <<< 6 := rfl
  rw [hoursByte, if_pos h, BitVec.or_assoc, clampField_eq _ (by decide), mode_bit]
  simp only [getLsbD_eq_iff, extract_toNat, byte, below_mode, digits, ← beq_pm_eq, Bool.toNat_true, Bool.toNat_false]
  omega

/-- The hours register of 24-hour mode: bits 7 and 6 zero, the digits of the clamped hour (R94). -/
theorem hoursByte_fields_of_24HourMode {t : TimeValue} (h : t.is12HourMode = false) :
    (hoursByte t).getLsbD 7 = false ∧ (hoursByte t).getLsbD 6 = false ∧
    ((hoursByte t).extractLsb' 4 2).toNat = min t.hour.toNat 23 / 10 ∧
    ((hoursByte t).extractLsb' 0 4).toNat = min t.hour.toNat 23 % 10 := by
  have tens_le : min t.hour.toNat 23 / 10 ≤ 2 := by omega
  have digits := encodeBcd_toNat_of_le (n := min t.hour.toNat 23) (by omega)
  rw [hoursByte, if_neg (ne_true_of_eq_false h), clampField_eq _ (by decide), Nat.zero_max]
  simp only [getLsbD_eq_iff, extract_toNat, digits, Bool.toNat_false]
  omega

/-- Settles O29: TIMEENC answers the three registers, field by field. -/
theorem timeencRegisterBytes : Obligations.TimeencRegisterBytes := by
  constructor
  · intro w hw hm
    rw [decode_of_meets (row := ⟨.timeenc, _, _⟩) (by decide) hw]
    exact if_neg hm
  · intro second minute hour osc mode meridian s hm
    obtain ⟨m, rfl⟩ := exists_meridian_code hm
    let t : TimeValue := ⟨second, minute, hour, osc, mode, m⟩
    obtain ⟨flag, tens₀, ones₀⟩ := secondsByte_fields t
    obtain ⟨zero₁, tens₁, ones₁⟩ := minutesByte_fields t
    refine ⟨_, _, _, exec_timeenc t s, flag, tens₀, ones₀, zero₁, tens₁, ones₁, ?_⟩
    cases mode with
    | true =>
      obtain ⟨zero₂, mode₂, fields⟩ := hoursByte_fields_of_12HourMode (t := t) rfl
      exact ⟨zero₂, mode₂, fun _ => fields, by simp⟩
    | false =>
      obtain ⟨zero₂, mode₂, fields⟩ := hoursByte_fields_of_24HourMode (t := t) rfl
      exact ⟨zero₂, mode₂, by simp, fun _ => fields⟩

/-! ## The fields of TIMEDEC -/

/-- A tens mask `2^k - 1` keeps the low `k` bits of the tens nibble, the ones mask 0xF all of the ones nibble (R72). -/
theorem decodeBcd_lowMask (b : Byte) {k : Nat} {tm : BitVec 4} (hm : tm.toNat = 2 ^ k - 1) :
    (decodeBcd b tm 0xF).toNat = (b.extractLsb' 4 k).toNat * 10 + (b.extractLsb' 0 4).toNat ∧
    (decodeBcd b tm 0xF).toNat ≤ (2 ^ k - 1) * 10 + 15 := by
  have pow_pos := Nat.two_pow_pos k
  have pow_dvd : 2 ^ k ∣ 2 ^ 4 := Nat.pow_dvd_pow 2 ((Nat.pow_le_pow_iff_right (a := 2) (by decide)).mp (by omega))
  have value : (decodeBcd b tm 0xF).toNat = (b.extractLsb' 4 k).toNat * 10 + (b.extractLsb' 0 4).toNat := by
    rw [decodeBcd_toNat, and_fullMask, BitVec.toNat_and, hm, Nat.and_two_pow_sub_one_eq_mod, extract_toNat b 4 4,
      Nat.mod_mod_of_dvd _ pow_dvd, extract_toNat b 4 k]
  have tens_lt := (b.extractLsb' 4 k).isLt
  have ones_lt := (b.extractLsb' 0 4).isLt
  omega

/-- TIMEDEC answers the decoded TimeValue in format T and nothing else happens (R96). -/
theorem exec_timedec (b0 b1 b2 : Byte) (s : State) :
    exec (.timedec b0 b1 b2) s
      = .next { s with responses := ⟨.ok, payloadTime (decodeTime b0 b1 b2)⟩ :: s.responses } := rfl

/-- In 12-hour mode the hour's tens mask is 0x1 and the meridian is bit 5 (R99, R100). -/
theorem decodeTime_of_12HourMode {b2 : Byte} (h : b2.getLsbD 6 = true) (b0 b1 : Byte) :
    (decodeTime b0 b1 b2).hour = decodeBcd b2 0x1 0xF ∧
    (decodeTime b0 b1 b2).meridian = (if b2.getLsbD 5 then .pm else .am) := by
  simp only [decodeTime, h, if_true, and_self]

/-- In 24-hour mode the hour's tens mask is 0x3 and there is no meridian (R99, R100). -/
theorem decodeTime_of_24HourMode {b2 : Byte} (h : b2.getLsbD 6 = false) (b0 b1 : Byte) :
    (decodeTime b0 b1 b2).hour = decodeBcd b2 0x3 0xF ∧ (decodeTime b0 b1 b2).meridian = .notApplicable := by
  simp only [decodeTime, h, Bool.false_eq_true, if_false, and_self]

/-- The code of a decoded meridian of 12-hour mode (R19). -/
theorem code_ite_pm_am (b : Bool) : (if b then Meridian.pm else .am).code = if b then 0b10#2 else 0b01#2 := by
  cases b <;> rfl

/-- Settles O31: each field is decoded under a mask of the low bits, and the mode picks the hour's. -/
theorem timedecFields : Obligations.TimedecFields := by
  constructor
  · intro w hw
    exact decode_of_meets (row := ⟨.timedec, _, _⟩) (by decide) hw
  · intro b0 b1 b2 s
    obtain ⟨second, second_le⟩ := decodeBcd_lowMask b0 (k := 3) (tm := 0x7) rfl
    obtain ⟨minute, minute_le⟩ := decodeBcd_lowMask b1 (k := 3) (tm := 0x7) rfl
    refine ⟨_, _, _, _, exec_timedec b0 b1 b2 s, second, second_le, minute, minute_le, ?_⟩
    cases mode : b2.getLsbD 6 with
    | true =>
      obtain ⟨hour, meridian⟩ := decodeTime_of_12HourMode mode b0 b1
      obtain ⟨value, value_le⟩ := decodeBcd_lowMask b2 (k := 1) (tm := 0x1) rfl
      rw [hour, meridian, code_ite_pm_am]
      exact ⟨fun _ => ⟨value, value_le, rfl⟩, nofun, by split <;> decide⟩
    | false =>
      obtain ⟨hour, meridian⟩ := decodeTime_of_24HourMode mode b0 b1
      obtain ⟨value, value_le⟩ := decodeBcd_lowMask b2 (k := 2) (tm := 0x3) rfl
      rw [hour, meridian]
      exact ⟨nofun, fun _ => ⟨value, value_le, rfl⟩, by decide⟩

/-! ## The round trips -/

/-- Settles O32: TIMEDEC reads in the bytes of TIMEENC the digits of the clamped fields, the flag, the mode and PM. -/
theorem timeRoundTripNormalises : Obligations.TimeRoundTripNormalises := by
  intro second minute hour osc mode meridian s u hm
  obtain ⟨b0, b1, b2, henc, flag, tens₀, ones₀, -, tens₁, ones₁, -, mode₂, h12, h24⟩ :=
    timeencRegisterBytes.2 second minute hour osc mode meridian s hm
  obtain ⟨second', minute', hour', meridian', hdec, hsecond, -, hminute, -, d12, d24, -⟩ := timedecFields.2 b0 b1 b2 u
  rw [flag, mode₂] at hdec
  refine ⟨b0, b1, b2, second', minute', hour', henc, ?_⟩
  cases mode with
  | true =>
    obtain ⟨pm, tens₂, ones₂⟩ := h12 rfl
    obtain ⟨hhour, -, rfl⟩ := d12 mode₂
    simp only [pm, decide_eq_true_eq] at hdec
    simp only [if_true]
    exact ⟨hdec, by omega, by omega, by omega⟩
  | false =>
    obtain ⟨tens₂, ones₂⟩ := h24 rfl
    obtain ⟨hhour, -, rfl⟩ := d24 mode₂
    simp only [Bool.false_eq_true, if_false]
    exact ⟨hdec, by omega, by omega, by omega⟩

/-- TIMEDEC of the bytes of TIMEENC gives a valid time back (R104). -/
theorem timedec_timeenc_of_valid {second minute hour : Byte} {osc mode : Bool} {meridian : BitVec 2}
    (hsecond : second.toNat ≤ 59) (hminute : minute.toNat ≤ 59)
    (h12 : mode = true → 1 ≤ hour.toNat ∧ hour.toNat ≤ 12 ∧ (meridian = 0b01#2 ∨ meridian = 0b10#2))
    (h24 : mode = false → hour.toNat ≤ 23 ∧ meridian = 0b00#2) (s u : State) :
    ∃ b0 b1 b2 : Byte,
    exec (.timeenc second minute hour osc mode meridian) s
      = .next { s with responses := ⟨.ok, 0#8 ++ b2 ++ b1 ++ b0⟩ :: s.responses } ∧
    exec (.timedec b0 b1 b2) u
      = .next { u with responses := ⟨.ok, (encode (.timeenc second minute hour osc mode meridian)).extractLsb' 0 32⟩ ::
          u.responses } := by
  have meridian_eq : meridian = if mode then (if meridian = 0b10#2 then 0b10#2 else 0b01#2) else 0b00#2 := by
    cases mode with
    | true => obtain ⟨-, -, rfl | rfl⟩ := h12 rfl <;> decide
    | false => exact (h24 rfl).2
  have hour_eq : (if mode then max 1 (min hour.toNat 12) else min hour.toNat 23) = hour.toNat := by
    cases mode with
    | true =>
      obtain ⟨hour_ge, hour_le, -⟩ := h12 rfl
      rw [if_pos rfl]
      omega
    | false =>
      obtain ⟨hour_le, -⟩ := h24 rfl
      rw [if_neg nofun]
      omega
  have hm : meridian ≠ 0b11#2 := by
    rw [meridian_eq]
    split_ifs <;> decide
  obtain ⟨b0, b1, b2, second', minute', hour', henc, hdec, hsecond', hminute', hhour'⟩ :=
    timeRoundTripNormalises second minute hour osc mode meridian s u hm
  obtain rfl : second' = second := BitVec.eq_of_toNat_eq (by omega)
  obtain rfl : minute' = minute := BitVec.eq_of_toNat_eq (by omega)
  obtain rfl : hour' = hour := BitVec.eq_of_toNat_eq (hhour'.trans hour_eq)
  rw [← meridian_eq, ← encode_timeenc_payload] at hdec
  exact ⟨b0, b1, b2, henc, hdec⟩

/-- The seconds byte comes back from the second it decodes to exactly when its low nibble is a digit and nothing is
clamped. -/
theorem secondsByte_decodeTime_eq_iff (b0 b1 b2 : Byte) : secondsByte (decodeTime b0 b1 b2) = b0 ↔
    (b0.extractLsb' 0 4).toNat ≤ 9 ∧ (decodeTime b0 b1 b2).second.toNat ≤ 59 := by
  obtain ⟨flag, tens, ones⟩ := secondsByte_fields (decodeTime b0 b1 b2)
  have value : (decodeTime b0 b1 b2).second.toNat = _ := (decodeBcd_lowMask b0 (k := 3) (tm := 0x7) rfl).1
  have flag_kept : (decodeTime b0 b1 b2).oscillatorDisabled = b0.getLsbD 7 := rfl
  rw [byte_eq_iff, ← BitVec.toNat_inj, ← BitVec.toNat_inj, flag, flag_kept, eq_self, true_and]
  omega

/-- The minutes byte comes back when, besides, its unused bit is zero. -/
theorem minutesByte_decodeTime_eq_iff (b0 b1 b2 : Byte) : minutesByte (decodeTime b0 b1 b2) = b1 ↔
    b1.getLsbD 7 = false ∧ (b1.extractLsb' 0 4).toNat ≤ 9 ∧ (decodeTime b0 b1 b2).minute.toNat ≤ 59 := by
  obtain ⟨unused, tens, ones⟩ := minutesByte_fields (decodeTime b0 b1 b2)
  have value : (decodeTime b0 b1 b2).minute.toNat = _ := (decodeBcd_lowMask b1 (k := 3) (tm := 0x7) rfl).1
  rw [byte_eq_iff, ← BitVec.toNat_inj, ← BitVec.toNat_inj, unused, eq_comm (a := false)]
  refine and_congr_right' ?_
  omega

/-- The hours byte comes back under the same condition, the range of the hour that of the mode. -/
theorem hoursByte_decodeTime_eq_iff (b0 b1 b2 : Byte) : hoursByte (decodeTime b0 b1 b2) = b2 ↔
    b2.getLsbD 7 = false ∧ (b2.extractLsb' 0 4).toNat ≤ 9 ∧
      (if (decodeTime b0 b1 b2).is12HourMode then
        1 ≤ (decodeTime b0 b1 b2).hour.toNat ∧ (decodeTime b0 b1 b2).hour.toNat ≤ 12
      else (decodeTime b0 b1 b2).hour.toNat ≤ 23) := by
  have mode_kept : (decodeTime b0 b1 b2).is12HourMode = b2.getLsbD 6 := rfl
  rw [byte_eq_iff, extract_succ_eq_iff, mode_kept]
  cases mode : b2.getLsbD 6 with
  | true =>
    obtain ⟨unused, mode', pm, tens, ones⟩ := hoursByte_fields_of_12HourMode (t := decodeTime b0 b1 b2) mode
    obtain ⟨hour, meridian⟩ := decodeTime_of_12HourMode mode b0 b1
    have value := hour ▸ (decodeBcd_lowMask b2 (k := 1) (tm := 0x1) rfl).1
    have pm_kept : (hoursByte (decodeTime b0 b1 b2)).getLsbD 5 = b2.getLsbD 5 := by
      rw [pm, meridian]
      cases b2.getLsbD 5 <;> rfl
    rw [extract_succ_eq_iff, unused, mode', pm_kept, ← BitVec.toNat_inj, ← BitVec.toNat_inj, eq_comm (a := false)]
    refine and_congr_right' ?_
    simp only [true_and, if_true]
    omega
  | false =>
    obtain ⟨unused, mode', tens, ones⟩ := hoursByte_fields_of_24HourMode (t := decodeTime b0 b1 b2) mode
    obtain ⟨hour, -⟩ := decodeTime_of_24HourMode mode b0 b1
    have value := hour ▸ (decodeBcd_lowMask b2 (k := 2) (tm := 0x3) rfl).1
    rw [unused, mode', ← BitVec.toNat_inj, ← BitVec.toNat_inj, eq_comm (a := false)]
    refine and_congr_right' ?_
    simp only [true_and, Bool.false_eq_true, if_false]
    omega

/-- Settles O33: valid fields come back because nothing of them is clamped; bytes come back one by one. -/
theorem timeRoundTripOfValidValues : Obligations.TimeRoundTripOfValidValues := by
  constructor
  · intro second minute hour osc mode meridian s u hsecond hminute h12 h24
    exact timedec_timeenc_of_valid hsecond hminute h12 h24 s u
  · intro b0 b1 b2 s u
    have hdec := exec_timedec b0 b1 b2 s
    rw [payloadTime, ← encode_timeenc_payload] at hdec
    refine ⟨_, _, _, _, _, _, hdec, ?_⟩
    rw [exec_timeenc, next_ok_inj, bytes3_inj, secondsByte_decodeTime_eq_iff, minutesByte_decodeTime_eq_iff,
      hoursByte_decodeTime_eq_iff]
    constructor
    · rintro ⟨⟨digit₀, le₀⟩, ⟨unused₁, digit₁, le₁⟩, unused₂, digit₂, range₂⟩
      exact ⟨unused₁, unused₂, digit₀, digit₁, digit₂, le₀, le₁, range₂⟩
    · rintro ⟨unused₁, unused₂, digit₀, digit₁, digit₂, le₀, le₁, range₂⟩
      exact ⟨⟨digit₀, le₀⟩, ⟨unused₁, digit₁, le₁⟩, unused₂, digit₂, range₂⟩

/-! ## Bits that are ignored -/

/-- Flipping one bit shows in that bit only. -/
theorem getLsbD_flip_eq_iff {n k : Nat} (b : BitVec n) (hk : k < n) (i : Nat) :
    (b ^^^ BitVec.twoPow n k).getLsbD i = b.getLsbD i ↔ k ≠ i := by
  rw [BitVec.getLsbD_xor, BitVec.getLsbD_twoPow, decide_eq_true hk, Bool.true_and]
  by_cases h : k = i <;> simp [h]

/-- Flipping one bit shows in a field exactly when it is one of the field's bits. -/
theorem extract_flip_eq_iff {n k : Nat} (b : BitVec n) (hk : k < n) (start len : Nat) :
    (b ^^^ BitVec.twoPow n k).extractLsb' start len = b.extractLsb' start len ↔ k < start ∨ start + len ≤ k := by
  simp only [extract_eq_iff, getLsbD_flip_eq_iff b hk]
  constructor
  · intro other
    by_contra inside
    exact other (k - start) (by omega) (by omega)
  · omega

/-- Flipping a bit changes what is decoded under a tens mask of `j` low bits exactly when the masks keep the bit. -/
theorem decodeBcd_flip_eq_iff {j k : Nat} {tm : BitVec 4} (hm : tm.toNat = 2 ^ j - 1) (hk : k < 8) (b : Byte) :
    decodeBcd (b ^^^ BitVec.twoPow 8 k) tm 0xF = decodeBcd b tm 0xF ↔ 4 + j ≤ k := by
  have tens := extract_flip_eq_iff b hk 4 j
  have ones := extract_flip_eq_iff b hk 0 4
  rw [← BitVec.toNat_inj] at tens ones ⊢
  rw [(decodeBcd_lowMask _ hm).1, (decodeBcd_lowMask _ hm).1]
  omega

/-- No two meridians have one code (R19). -/
theorem Meridian.code_inj {m m' : Meridian} : m.code = m'.code ↔ m = m' := by
  cases m <;> cases m' <;> decide

/-- Format T tells every field of a TimeValue (R52). -/
theorem payloadTime_inj {t t' : TimeValue} : payloadTime t = payloadTime t' ↔
    t.second = t'.second ∧ t.minute = t'.minute ∧ t.hour = t'.hour ∧ t.oscillatorDisabled = t'.oscillatorDisabled ∧
      t.is12HourMode = t'.is12HourMode ∧ t.meridian = t'.meridian := by
  rw [payloadTime, payloadTime, append_inj, append_inj, append_inj, append_inj, append_inj, append_inj, ofBool_inj,
    ofBool_inj, Meridian.code_inj]
  tauto

/-- Format D tells every field of a DateValue (R52). -/
theorem payloadDate_inj {d d' : DateValue} : payloadDate d = payloadDate d' ↔
    d.dayOfWeek = d'.dayOfWeek ∧ d.dayOfMonth = d'.dayOfMonth ∧ d.month = d'.month ∧ d.year = d'.year := by
  rw [payloadDate, payloadDate, append_inj, append_inj, append_inj]
  tauto

/-- DATEDEC answers the decoded DateValue in format D and nothing else happens (R115). -/
theorem exec_datedec (b0 b1 b2 b3 : Byte) (s : State) :
    exec (.datedec b0 b1 b2 b3) s
      = .next { s with responses := ⟨.ok, payloadDate (decodeDate s.params b0 b1 b2 b3)⟩ :: s.responses } := rfl

/-- TIMEDEC ignores no bit of the seconds byte: bit 7 is the flag, the others are digits (R101). -/
theorem timedec_flip_seconds_ne {k : Nat} (hk : k < 8) (b0 b1 b2 : Byte) (s : State) :
    exec (.timedec (b0 ^^^ BitVec.twoPow 8 k) b1 b2) s ≠ exec (.timedec b0 b1 b2) s := by
  have second := decodeBcd_flip_eq_iff (j := 3) (tm := 0x7) rfl hk b0
  have flag := getLsbD_flip_eq_iff b0 hk 7
  rw [exec_timedec, exec_timedec, ne_eq, next_ok_inj, payloadTime_inj]
  simp only [decodeTime, second, flag]
  omega

/-- Of the minutes byte TIMEDEC ignores bit 7 (R101). -/
theorem timedec_flip_minutes_eq_iff {k : Nat} (hk : k < 8) (b0 b1 b2 : Byte) (s : State) :
    exec (.timedec b0 (b1 ^^^ BitVec.twoPow 8 k) b2) s = exec (.timedec b0 b1 b2) s ↔ k = 7 := by
  have minute := decodeBcd_flip_eq_iff (j := 3) (tm := 0x7) rfl hk b1
  rw [exec_timedec, exec_timedec, next_ok_inj, payloadTime_inj]
  simp only [decodeTime, minute, true_and, and_true]
  omega

/-- PM and AM tell the bit they were read from (R100). -/
theorem ite_pm_am_inj {a b : Bool} : (if a then Meridian.pm else .am) = (if b then .pm else .am) ↔ a = b := by
  cases a <;> cases b <;> decide

/-- Of the hours byte TIMEDEC ignores bit 7: in each mode the hour's mask, the mode bit and, in 12-hour mode, the PM bit cover
the others (R101). -/
theorem timedec_flip_hours_eq_iff {k : Nat} (hk : k < 8) (b0 b1 b2 : Byte) (s : State) :
    exec (.timedec b0 b1 (b2 ^^^ BitVec.twoPow 8 k)) s = exec (.timedec b0 b1 b2) s ↔ k = 7 := by
  have hour12 := decodeBcd_flip_eq_iff (j := 1) (tm := 0x1) rfl hk b2
  have hour24 := decodeBcd_flip_eq_iff (j := 2) (tm := 0x3) rfl hk b2
  have mode := getLsbD_flip_eq_iff b2 hk 6
  have pm := getLsbD_flip_eq_iff b2 hk 5
  rw [exec_timedec, exec_timedec, next_ok_inj, payloadTime_inj]
  by_cases hk6 : k = 6
  · have mode_differs : (b2 ^^^ BitVec.twoPow 8 k).getLsbD 6 ≠ b2.getLsbD 6 := fun h => mode.mp h hk6
    exact iff_of_false (fun ⟨_, _, _, _, h, _⟩ => mode_differs h) (by omega)
  · have mode_kept := mode.mpr hk6
    cases h : b2.getLsbD 6 with
    | true =>
      simp only [decodeTime, mode_kept, h, if_true, ite_pm_am_inj, hour12, pm, true_and]
      omega
    | false =>
      simp only [decodeTime, mode_kept, h, Bool.false_eq_true, if_false, hour24, true_and, and_true]
      omega

/-- Of the day-of-month byte DATEDEC ignores bits 7 and 6 (R122). -/
theorem datedec_flip_dayOfMonth_eq_iff {k : Nat} (hk : k < 8) (b0 b1 b2 b3 : Byte) (s : State) :
    exec (.datedec b0 (b1 ^^^ BitVec.twoPow 8 k) b2 b3) s = exec (.datedec b0 b1 b2 b3) s ↔ 6 ≤ k := by
  rw [exec_datedec, exec_datedec, next_ok_inj, payloadDate_inj, ← decodeBcd_flip_eq_iff (j := 2) (tm := 0x3) rfl hk b1]
  simp only [decodeDate, true_and, and_true]

/-- Of the month byte DATEDEC ignores bits 7 to 5 (R122). -/
theorem datedec_flip_month_eq_iff {k : Nat} (hk : k < 8) (b0 b1 b2 b3 : Byte) (s : State) :
    exec (.datedec b0 b1 (b2 ^^^ BitVec.twoPow 8 k) b3) s = exec (.datedec b0 b1 b2 b3) s ↔ 5 ≤ k := by
  rw [exec_datedec, exec_datedec, next_ok_inj, payloadDate_inj, ← decodeBcd_flip_eq_iff (j := 1) (tm := 0x1) rfl hk b2]
  simp only [decodeDate, true_and, and_true]

/-- DATEDEC ignores no bit of the year byte (R122). -/
theorem datedec_flip_year_ne {k : Nat} (hk : k < 8) (b0 b1 b2 b3 : Byte) (s : State) :
    exec (.datedec b0 b1 b2 (b3 ^^^ BitVec.twoPow 8 k)) s ≠ exec (.datedec b0 b1 b2 b3) s := by
  have year := decodeBcd_flip_eq_iff (j := 4) (tm := 0xF) rfl hk b3
  rw [exec_datedec, exec_datedec, ne_eq, next_ok_inj, payloadDate_inj]
  simp only [decodeDate, true_and, year]
  omega

/-- A bit among bits 7:3 makes a byte that has none of them larger than 7. -/
theorem flip_gt_seven {k : Nat} (hk : k < 8) (hk3 : 3 ≤ k) {b : Byte} (hb : b.toNat ≤ 7) :
    7 < (b ^^^ BitVec.twoPow 8 k).toNat := by
  have high := extract_flip_eq_iff b hk 3 5
  rw [← BitVec.toNat_inj, extract_toNat, extract_toNat] at high
  omega

/-- A day-of-week byte above 7 gives `DOW_FALLBACK` (R116). -/
theorem decodeDow_of_gt {b0 : Byte} (h : 7 < b0.toNat) (p : Params) :
    (decodeDow p b0).toNat = p.dowFallback.val + 1 := by
  rw [decodeDow, if_neg (by omega), fallbackOrdinal_toNat]

/-- Settles O37: byte by byte, the masks and the tested bits tell a flipped bit from the byte it was flipped in. -/
theorem decodersIgnoreExactlyTheUnusedBits : Obligations.DecodersIgnoreExactlyTheUnusedBits := by
  constructor
  · intro b0 b1 b2 s k hk
    exact ⟨timedec_flip_seconds_ne hk b0 b1 b2 s, timedec_flip_minutes_eq_iff hk b0 b1 b2 s,
      timedec_flip_hours_eq_iff hk b0 b1 b2 s⟩
  · intro b0 b1 b2 b3 s k hk
    exact ⟨datedec_flip_dayOfMonth_eq_iff hk b0 b1 b2 b3 s, datedec_flip_month_eq_iff hk b0 b1 b2 b3 s,
      datedec_flip_year_ne hk b0 b1 b2 b3 s,
      fun hk3 _ hle => ⟨_, _, _, _, exec_datedec _ b1 b2 b3 s, decodeDow_of_gt (flip_gt_seven hk hk3 hle) s.params⟩⟩

end Sys2Proof.Machine
end

section
/-!
PROOFS. The date register codec (spec/43_date.md): the register bytes of DATEENC (R110 to R114), the fields of DATEDEC (R115 to
R119), and the round trips between them (R121).
-/

namespace Sys2Proof.Machine

/-! ## One field in BCD -/

/-- A byte is its bits above the tens, the `j` bits of its tens and its low nibble. -/
theorem byte_eq_iff_digits {j : Nat} (hj : j ≤ 4) {x y : Byte} : x = y ↔
    x.extractLsb' (4 + j) (4 - j) = y.extractLsb' (4 + j) (4 - j) ∧ x.extractLsb' 4 j = y.extractLsb' 4 j ∧
      x.extractLsb' 0 4 = y.extractLsb' 0 4 := by
  simp only [extract_eq_iff]
  constructor
  · rintro rfl
    simp
  · rintro ⟨unused, tens, ones⟩
    refine BitVec.eq_of_getLsbD_eq fun i hi => ?_
    by_cases hi_ones : i < 4
    · simpa using ones i hi_ones
    by_cases hi_tens : i < 4 + j
    · have bit := tens (i - 4) (by omega)
      rwa [Nat.add_sub_cancel' (by omega)] at bit
    · have bit := unused (i - (4 + j)) (by omega)
      rwa [Nat.add_sub_cancel' (by omega)] at bit

/-- The byte of a number whose tens fit in `j` bits: nothing above the tens, the tens, the ones (R70). -/
theorem encodeBcd_digits {n j : Nat} (hj : j ≤ 4) (htens : n / 10 < 2 ^ j) :
    (encodeBcd n).extractLsb' (4 + j) (4 - j) = 0 ∧ ((encodeBcd n).extractLsb' 4 j).toNat = n / 10 ∧
      ((encodeBcd n).extractLsb' 0 4).toNat = n % 10 := by
  have pow_le : 2 ^ j ≤ 2 ^ 4 := Nat.pow_le_pow_right (by decide) hj
  have byte : (encodeBcd n).toNat = 16 * (n / 10) + n % 10 := by
    rw [encodeBcd_toNat]
    omega
  have above_ones : (encodeBcd n).toNat / 2 ^ 4 = n / 10 := by omega
  refine ⟨BitVec.eq_of_toNat_eq ?_, ?_, encodeBcd_ones n⟩
  · rw [extract_toNat, Nat.pow_add, ← Nat.div_div_eq_div_mul, above_ones, Nat.div_eq_of_lt htens, Nat.zero_mod]
    rfl
  · rw [extract_toNat, above_ones, Nat.mod_eq_of_lt htens]

/-- A field within its range comes back through the clamp and BCD, under a tens mask that holds the tens of the range
(R121). -/
theorem decodeBcd_encodeBcd_clampField {f : Byte} {lo hi k : Nat} {tm : BitVec 4} (hm : tm.toNat = 2 ^ k - 1)
    (htens : hi / 10 ≤ tm.toNat) (hlo : lo ≤ f.toNat) (hhi : f.toNat ≤ hi) :
    decodeBcd (encodeBcd (clampField f lo hi)) tm 0xF = f := by
  have kept : clampField f lo hi = f.toNat := by
    rw [clampField_eq f (hlo.trans hhi)]
    omega
  apply BitVec.eq_of_toNat_eq
  rw [kept, decodeBcd_encodeBcd hm ((Nat.div_le_div_right hhi).trans htens)]

/-- A byte comes back from the field it decodes to exactly when the bits above its tens are zero, its low nibble is a digit
and nothing is clamped (R121). -/
theorem encodeBcd_clampField_decodeBcd_eq_iff {b : Byte} {lo hi j : Nat} {tm : BitVec 4} (hm : tm.toNat = 2 ^ j - 1)
    (hj : j ≤ 4) (hrange : lo ≤ hi) (htens : hi / 10 < 2 ^ j) :
    encodeBcd (clampField (decodeBcd b tm 0xF) lo hi) = b ↔
      b.extractLsb' (4 + j) (4 - j) = 0 ∧ (b.extractLsb' 0 4).toNat ≤ 9 ∧
        lo ≤ (decodeBcd b tm 0xF).toNat ∧ (decodeBcd b tm 0xF).toNat ≤ hi := by
  obtain ⟨value, -⟩ := decodeBcd_lowMask b hm
  have clamped_le : max lo (min (decodeBcd b tm 0xF).toNat hi) ≤ hi := by omega
  obtain ⟨unused, tens, ones⟩ := encodeBcd_digits hj ((Nat.div_le_div_right clamped_le).trans_lt htens)
  rw [byte_eq_iff_digits hj, clampField_eq _ hrange, unused, eq_comm (a := 0)]
  refine and_congr_right' ?_
  rw [← BitVec.toNat_inj, ← BitVec.toNat_inj, tens, ones]
  omega

/-! ## The bytes of DATEENC -/

/-- DATEENC of a DateValue answers its four register bytes and nothing else happens (R110). -/
theorem exec_dateenc (d : DateValue) (s : State) :
    exec (.dateenc d.dayOfWeek d.dayOfMonth d.month d.year) s
      = .next { s with responses := ⟨.ok, yearByte d ++ monthByte d ++ domByte d ++ dowByte d⟩ :: s.responses } := rfl

/-- The day-of-week register is the clamped ordinal (R111). -/
theorem dowByte_toNat (d : DateValue) : (dowByte d).toNat = max 1 (min d.dayOfWeek.toNat 7) := by
  rw [dowByte, clampField_eq _ (by decide), encodeBcd_toNat_of_le (by omega)]
  omega

/-- The day-of-month register: bits 7 and 6 zero over the digits of the clamped day (R112). -/
theorem domByte_fields (d : DateValue) :
    (domByte d).extractLsb' 6 2 = 0 ∧ ((domByte d).extractLsb' 4 2).toNat = max 1 (min d.dayOfMonth.toNat 31) / 10 ∧
    ((domByte d).extractLsb' 0 4).toNat = max 1 (min d.dayOfMonth.toNat 31) % 10 := by
  rw [domByte, clampField_eq _ (by decide)]
  exact encodeBcd_digits (j := 2) (by decide) (by omega)

/-- The month register: bits 7 to 5 zero over the digits of the clamped month (R113). -/
theorem monthByte_fields (d : DateValue) :
    (monthByte d).extractLsb' 5 3 = 0 ∧ ((monthByte d).extractLsb' 4 1).toNat = max 1 (min d.month.toNat 12) / 10 ∧
    ((monthByte d).extractLsb' 0 4).toNat = max 1 (min d.month.toNat 12) % 10 := by
  rw [monthByte, clampField_eq _ (by decide)]
  exact encodeBcd_digits (j := 1) (by decide) (by omega)

/-- The year register: the digits of the clamped year (R114). -/
theorem yearByte_fields (d : DateValue) :
    ((yearByte d).extractLsb' 4 4).toNat = min d.year.toNat 99 / 10 ∧
    ((yearByte d).extractLsb' 0 4).toNat = min d.year.toNat 99 % 10 := by
  rw [yearByte, clampField_eq _ (by decide), Nat.zero_max]
  exact (encodeBcd_digits (j := 4) (by decide) (by omega)).2

/-- Settles O34: DATEENC answers the four registers, field by field. -/
theorem dateencRegisterBytes : Obligations.DateencRegisterBytes := by
  constructor
  · intro w hw
    exact decode_of_meets (row := ⟨.dateenc, _, _⟩) (by decide) hw
  · intro dow dom month year s
    let d : DateValue := ⟨dow, dom, month, year⟩
    obtain ⟨zero₁, tens₁, ones₁⟩ := domByte_fields d
    obtain ⟨zero₂, tens₂, ones₂⟩ := monthByte_fields d
    exact ⟨_, _, _, _, exec_dateenc d s, dowByte_toNat d, zero₁, tens₁, ones₁, zero₂, tens₂, ones₂, yearByte_fields d⟩

/-! ## The fields of DATEDEC -/

/-- A day-of-week byte in 1 to 7 is the ordinal (R116). -/
theorem decodeDow_of_valid {b0 : Byte} (hge : 1 ≤ b0.toNat) (hle : b0.toNat ≤ 7) (p : Params) : decodeDow p b0 = b0 :=
  if_pos ⟨hge, hle⟩

/-- A malformed day-of-week byte, zero or above 7, gives `DOW_FALLBACK` (R116). -/
theorem decodeDow_of_malformed {b0 : Byte} (h : b0.toNat = 0 ∨ 7 < b0.toNat) (p : Params) :
    (decodeDow p b0).toNat = p.dowFallback.val + 1 := by
  rw [decodeDow, if_neg (by omega), fallbackOrdinal_toNat]

/-- The decoded day-of-week is always an ordinal (R116). -/
theorem decodeDow_range (p : Params) (b0 : Byte) : 1 ≤ (decodeDow p b0).toNat ∧ (decodeDow p b0).toNat ≤ 7 := by
  by_cases h : 1 ≤ b0.toNat ∧ b0.toNat ≤ 7
  · rwa [decodeDow_of_valid h.1 h.2]
  · have fallback_lt := p.dowFallback.isLt
    rw [decodeDow_of_malformed (by omega)]
    omega

/-- The decoded day-of-week is the byte exactly when the byte is an ordinal (R116). -/
theorem decodeDow_eq_self_iff {p : Params} {b0 : Byte} : decodeDow p b0 = b0 ↔ 1 ≤ b0.toNat ∧ b0.toNat ≤ 7 :=
  ⟨fun h => h ▸ decodeDow_range p b0, fun ⟨hge, hle⟩ => decodeDow_of_valid hge hle p⟩

/-- Settles O35: the day-of-week byte is tested as a whole, the others are decoded under masks of the low bits. -/
theorem datedecFields : Obligations.DatedecFields := by
  constructor
  · intro w hw
    exact decode_of_meets (row := ⟨.datedec, _, _⟩) (by decide) hw
  · intro b0 b1 b2 b3 s
    obtain ⟨dow_ge, dow_le⟩ := decodeDow_range s.params b0
    obtain ⟨dom, dom_le⟩ := decodeBcd_lowMask b1 (k := 2) (tm := 0x3) rfl
    obtain ⟨month, month_le⟩ := decodeBcd_lowMask b2 (k := 1) (tm := 0x1) rfl
    obtain ⟨year, year_le⟩ := decodeBcd_lowMask b3 (k := 4) (tm := 0xF) rfl
    exact ⟨_, _, _, _, exec_datedec b0 b1 b2 b3 s, fun hge hle => decodeDow_of_valid hge hle s.params,
      fun h => decodeDow_of_malformed h s.params, dow_ge, dow_le, dom, dom_le, month, month_le, year, year_le⟩

/-! ## The round trips -/

/-- Four bytes are told from their bundle (R55). -/
theorem bytes4_inj {x₀ x₁ x₂ x₃ y₀ y₁ y₂ y₃ : Byte} :
    (x₃ ++ x₂ ++ x₁ ++ x₀ : BitVec 32) = y₃ ++ y₂ ++ y₁ ++ y₀ ↔ x₀ = y₀ ∧ x₁ = y₁ ∧ x₂ = y₂ ∧ x₃ = y₃ := by
  rw [append_inj, append_inj, append_inj]
  tauto

/-- The day-of-week register of an ordinal is the ordinal (R111). -/
theorem dowByte_eq_self {d : DateValue} (hge : 1 ≤ d.dayOfWeek.toNat) (hle : d.dayOfWeek.toNat ≤ 7) :
    dowByte d = d.dayOfWeek := by
  apply BitVec.eq_of_toNat_eq
  rw [dowByte_toNat]
  omega

/-- The domains of the four fields (R16). -/
theorem DateValue.valid_iff {d : DateValue} : d.valid = true ↔
    1 ≤ d.dayOfWeek.toNat ∧ d.dayOfWeek.toNat ≤ 7 ∧ 1 ≤ d.dayOfMonth.toNat ∧ d.dayOfMonth.toNat ≤ 31 ∧
      1 ≤ d.month.toNat ∧ d.month.toNat ≤ 12 ∧ d.year.toNat ≤ 99 := by
  simp only [DateValue.valid, Bool.and_eq_true, decide_eq_true_eq, and_assoc]

/-- A valid date is decoded from its register bytes, under every `DOW_FALLBACK` (R121). -/
theorem decodeDate_of_valid {d : DateValue} (hd : d.valid = true) (p : Params) :
    decodeDate p (dowByte d) (domByte d) (monthByte d) (yearByte d) = d := by
  obtain ⟨dow_ge, dow_le, dom_ge, dom_le, month_ge, month_le, year_le⟩ := DateValue.valid_iff.mp hd
  have dow : decodeDow p (dowByte d) = d.dayOfWeek := by
    rw [dowByte_eq_self dow_ge dow_le, decodeDow_of_valid dow_ge dow_le]
  have dom : decodeBcd (domByte d) 0x3 0xF = d.dayOfMonth :=
    decodeBcd_encodeBcd_clampField (k := 2) rfl (by decide) dom_ge dom_le
  have month : decodeBcd (monthByte d) 0x1 0xF = d.month :=
    decodeBcd_encodeBcd_clampField (k := 1) rfl (by decide) month_ge month_le
  have year : decodeBcd (yearByte d) 0xF 0xF = d.year :=
    decodeBcd_encodeBcd_clampField (k := 4) rfl (by decide) (Nat.zero_le _) year_le
  rw [decodeDate, dow, dom, month, year]

/-- The day-of-week byte comes back exactly when it is an ordinal: what is decoded is never clamped. -/
theorem dowByte_decodeDate_eq_iff (p : Params) (b0 b1 b2 b3 : Byte) :
    dowByte (decodeDate p b0 b1 b2 b3) = b0 ↔ 1 ≤ b0.toNat ∧ b0.toNat ≤ 7 := by
  obtain ⟨hge, hle⟩ := decodeDow_range p b0
  rw [dowByte_eq_self hge hle]
  exact decodeDow_eq_self_iff

/-- The day-of-month byte comes back when its unused bits are zero, its low nibble is a digit and nothing is clamped. -/
theorem domByte_decodeDate_eq_iff (p : Params) (b0 b1 b2 b3 : Byte) : domByte (decodeDate p b0 b1 b2 b3) = b1 ↔
    b1.extractLsb' 6 2 = 0 ∧ (b1.extractLsb' 0 4).toNat ≤ 9 ∧
      1 ≤ (decodeDate p b0 b1 b2 b3).dayOfMonth.toNat ∧ (decodeDate p b0 b1 b2 b3).dayOfMonth.toNat ≤ 31 :=
  encodeBcd_clampField_decodeBcd_eq_iff (j := 2) rfl (by decide) (by decide) (by decide)

/-- The month byte comes back under the same condition, with three unused bits. -/
theorem monthByte_decodeDate_eq_iff (p : Params) (b0 b1 b2 b3 : Byte) : monthByte (decodeDate p b0 b1 b2 b3) = b2 ↔
    b2.extractLsb' 5 3 = 0 ∧ (b2.extractLsb' 0 4).toNat ≤ 9 ∧
      1 ≤ (decodeDate p b0 b1 b2 b3).month.toNat ∧ (decodeDate p b0 b1 b2 b3).month.toNat ≤ 12 :=
  encodeBcd_clampField_decodeBcd_eq_iff (j := 1) rfl (by decide) (by decide) (by decide)

/-- The year byte has no unused bits, and no year is too small. -/
theorem yearByte_decodeDate_eq_iff (p : Params) (b0 b1 b2 b3 : Byte) : yearByte (decodeDate p b0 b1 b2 b3) = b3 ↔
    (b3.extractLsb' 0 4).toNat ≤ 9 ∧ (decodeDate p b0 b1 b2 b3).year.toNat ≤ 99 := by
  have full := encodeBcd_clampField_decodeBcd_eq_iff (b := b3) (lo := 0) (hi := 99) (j := 4) (tm := 0xF) rfl (by decide)
    (by decide) (by decide)
  have no_unused : b3.extractLsb' (4 + 4) (4 - 4) = 0 := BitVec.of_length_zero
  exact full.trans ⟨fun ⟨_, digit, _, le⟩ => ⟨digit, le⟩, fun ⟨digit, le⟩ => ⟨no_unused, digit, Nat.zero_le _, le⟩⟩

/-- Settles O36: valid fields come back because nothing of them is clamped; bytes come back one by one. -/
theorem dateRoundTripOfValidValues : Obligations.DateRoundTripOfValidValues := by
  constructor
  · intro dow dom month year s u dow_ge dow_le dom_ge dom_le month_ge month_le year_le
    let d : DateValue := ⟨dow, dom, month, year⟩
    have valid : d.valid = true := DateValue.valid_iff.mpr ⟨dow_ge, dow_le, dom_ge, dom_le, month_ge, month_le, year_le⟩
    refine ⟨_, _, _, _, exec_dateenc d s, ?_⟩
    rw [exec_datedec, decodeDate_of_valid valid, payloadDate]
  · intro b0 b1 b2 b3 s u
    refine ⟨_, _, _, _, exec_datedec b0 b1 b2 b3 s, ?_⟩
    rw [exec_dateenc, next_ok_inj, bytes4_inj, dowByte_decodeDate_eq_iff, domByte_decodeDate_eq_iff,
      monthByte_decodeDate_eq_iff, yearByte_decodeDate_eq_iff]
    constructor
    · rintro ⟨⟨ge₀, le₀⟩, ⟨unused₁, digit₁, ge₁, le₁⟩, ⟨unused₂, digit₂, ge₂, le₂⟩, digit₃, le₃⟩
      exact ⟨ge₀, le₀, unused₁, unused₂, digit₁, digit₂, digit₃, ge₁, le₁, ge₂, le₂, le₃⟩
    · rintro ⟨ge₀, le₀, unused₁, unused₂, digit₁, digit₂, digit₃, ge₁, le₁, ge₂, le₂, le₃⟩
      exact ⟨⟨ge₀, le₀⟩, ⟨unused₁, digit₁, ge₁, le₁⟩, ⟨unused₂, digit₂, ge₂, le₂⟩, digit₃, le₃⟩

end Sys2Proof.Machine
end

section
/-!
PROOFS. The RAM address mapper (spec/44_ram.md): the window is all the CORE writes (R131), the mapped address (R130), RAMRD and
RAMWR when the transport answers, at once or later (R133 to R136), one transaction per command (R137), read after write (R138).
-/

namespace Sys2Proof.Machine

/-! ## The window is all the CORE writes -/

/-- Nothing that a safe state promises is about the inputs still at the port. -/
theorem State.Safe.setInputs {s : State} (h : s.Safe) (rest : List Input) : State.Safe { s with inputs := rest } :=
  ⟨h.mem, h.inFlight, h.busLog, h.responses⟩

/-- One more response is safe when it carries no value unless it is OK (R55). -/
theorem State.Safe.respond {s : State} {st : Status} {p : BitVec 32} (h : s.Safe) (hp : st ≠ .ok → p = 0) :
    (respond st p s).Safe where
  mem := h.mem
  inFlight := h.inFlight
  busLog := h.busLog
  responses := List.forall_mem_cons.mpr ⟨hp, h.responses⟩

/-- An access in the window is in progress, or it is finished: then it has added its calls and one response (R131, R133 to
R136). -/
theorem State.Safe.access {s : State} {x : Transfer} (h : s.Safe) (hx : inWindow x.addr) : (access x s).Safe := by
  have hmem := access_wf hx h.mem
  obtain ⟨hdone, ⟨st, p, hr, hst⟩, status, bytes, hb⟩ | ⟨hwaits, hr, hb⟩ := access_ends_or_waits x s
  · have no_value : st ≠ .ok → p = 0 := fun hne => (hst.resolve_left hne).2
    refine ⟨hmem, by simp [hdone], ?_, ?_⟩
    · rw [hb]
      exact List.forall_mem_cons.mpr ⟨⟨x.addr, callsAddress_calls .., hx⟩, h.busLog⟩
    · rw [hr]
      exact List.forall_mem_cons.mpr ⟨no_value, h.responses⟩
  · refine ⟨hmem, ?_, hb ▸ h.busLog, hr ▸ h.responses⟩
    rw [hwaits]
    rintro _ ⟨⟩
    exact hx

/-- Settles O14: each thing a step can do keeps a state safe. -/
theorem stepKeepsSafe : Obligations.StepKeepsSafe := by
  intro s t hs h
  obtain ⟨x, hx, rfl⟩ | ⟨-, hidle⟩ := step_cases h
  · exact hs.access (hs.inFlight x hx)
  · obtain ⟨-, rfl⟩ | ⟨_, rest, _, _, -, rfl, hp⟩ | ⟨_, rest, _, _, -, -, -, hx, rfl⟩ | ⟨_, _, rest, -, ha, rfl⟩ |
      ⟨rest, -, rfl⟩ := hidle
    · exact hs
    · exact (hs.setInputs rest).respond hp
    · exact (hs.setInputs rest).access hx
    · exact { hs.setInputs rest with mem := Memory.wf_write hs.mem ha }
    · exact { hs.setInputs rest with inFlight := by simp }

/-- Settles O16: of all a step can do, only an out-of-band change and an access write to P, and an access is in the window. -/
theorem coreNeverWritesOutsideTheWindow : Obligations.CoreNeverWritesOutsideTheWindow := by
  intro s t hs hext h a ha
  have outside : a < 0x08 ∨ 0x3F < a := by omega
  obtain ⟨x, hx, rfl⟩ | ⟨hf, hidle⟩ := step_cases h
  · exact access_read_outside (hs.inFlight x hx) hs.mem outside
  · obtain ⟨-, rfl⟩ | ⟨_, _, _, _, -, rfl, -⟩ | ⟨_, rest, _, _, -, -, -, hx, rfl⟩ | ⟨a', v, rest, hi, -⟩ | ⟨_, -, rfl⟩ :=
      hidle
    · rfl
    · rfl
    · exact access_read_outside hx (hs.setInputs rest).mem outside
    · exact absurd hi (hext hf a' v rest)
    · rfl

/-! ## The mapped address -/

/-- Settles O38: the payload is the mapped address, as a number. -/
theorem mapoffGivesTheWindowAddress : Obligations.MapoffGivesTheWindowAddress := by
  constructor
  · intro w hw
    exact decode_of_meets (row := ⟨.mapoff, _, _⟩) (by decide) hw
  · intro offset s
    refine ⟨payloadByte (mapOffset offset), exec_mapoff offset s, ?_⟩
    rw [payloadByte_toNat, mapOffset_toNat]
    omega

/-! ## The transport's answer ends the transaction -/

/-- An access that finds its answer lined up uses it up and is finished with it (R42). -/
theorem access_of_linedUp (x : Transfer) {s : State} {status : Byte} {bytes : List Byte} {later : List Answer}
    (ht : s.transport = .unconstrained) (ha : s.answers = .reply status bytes :: later) :
    access x s = finish x status bytes { s with answers := later } :=
  access_of_reply (transact_of_linedUp x ht ha)

/-- A read that is acknowledged and delivered no byte takes none and answers TRANSPORT_FAILURE (R134). -/
theorem finish_read_undelivered (a : Byte) (s : State) :
    finish (.read a) 0 [] s = { s with
      inFlight := none, responses := ⟨.transportFailure, 0⟩ :: s.responses,
      busLog := [.beginTransaction s.params.devAddr, .writeByte a, .endTransaction false,
        .requestBytes s.params.devAddr 1 true] :: s.busLog } := rfl

/-- Settles O40: RAMRD is one read access, finished in one of the three ways a read can end. -/
theorem ramrdWhenTheTransportAnswers : Obligations.RamrdWhenTheTransportAnswers := by
  constructor
  · intro w hw
    exact decode_of_meets (row := ⟨.ramrd, _, _⟩) (by decide) hw
  · intro offset s xs bytes later ht ha
    rw [exec_ramrd, access_of_linedUp _ ht ha]
    refine ⟨mapOffset offset, mapOffset_toNat offset, fun hxs => ?_, ?_, ?_⟩
    · rw [finish_read_unacknowledged hxs]
    · rintro rfl rfl
      rw [finish_read_undelivered]
    · rintro b more rfl rfl
      rw [finish_read_delivered]

/-- Settles O41: RAMWR is one write access, finished by its status. -/
theorem ramwrWhenTheTransportAnswers : Obligations.RamwrWhenTheTransportAnswers := by
  constructor
  · intro w hw
    exact decode_of_meets (row := ⟨.ramwr, _, _⟩) (by decide) hw
  · intro offset v s xs bytes later ht ha
    refine ⟨mapOffset offset, mapOffset_toNat offset, ?_⟩
    rw [exec_ramwr, access_of_linedUp _ ht ha, finish_write]

/-- Settles O50: the step of a waiting command is its access, which the answer finishes as it finishes the command's own. -/
theorem transactionInProgressEndsWithTheAnswer : Obligations.TransactionInProgressEndsWithTheAnswer := by
  intro s a v xs bytes later ht ha
  have ends : ∀ x, s.inFlight = some x → step s = .next (finish x xs bytes { s with answers := later }) := by
    intro x hf
    rw [step_of_inFlight hf, access_of_linedUp x ht ha]
  refine ⟨fun hf hxs => ?_, ?_, ?_, fun hf => ?_⟩
  · rw [ends _ hf, finish_read_unacknowledged hxs]
  · rintro hf rfl rfl
    rw [ends _ hf, finish_read_undelivered]
  · rintro b more hf rfl rfl
    rw [ends _ hf, finish_read_delivered]
  · rw [ends _ hf, finish_write]

/-! ## One transaction per command -/

/-- An access has finished its one transaction, at its address, or has it in progress and finished none (R137). -/
theorem access_makes_one_transaction (x : Transfer) (s : State) :
    ((access x s).inFlight = none ∧
      ∃ calls, (access x s).busLog = calls :: s.busLog ∧ callsAddress? calls = some x.addr) ∨
    ((access x s).inFlight = some x ∧ (access x s).busLog = s.busLog) := by
  obtain ⟨hdone, -, _, _, hb⟩ | ⟨hwaits, -, hb⟩ := access_ends_or_waits x s
  · exact .inl ⟨hdone, _, hb, callsAddress_calls ..⟩
  · exact .inr ⟨hwaits, hb⟩

/-- Settles O45: RAMRD, RAMWR and the step that waits for one are one access; the other commands and an illegal word only
respond. -/
theorem oneTransactionPerRamCommand : Obligations.OneTransactionPerRamCommand := by
  refine ⟨?_, ?_, ?_, ?_⟩
  · intro i s t hop h
    obtain ⟨hrd, hwr, -⟩ | ⟨-, x, hx, he⟩ := exec_cases i s
    · exact absurd hop (not_or.mpr ⟨hrd, hwr⟩)
    cases he.symm.trans h
    obtain ⟨hdone, calls, hb, haddr⟩ | ⟨hwaits, hb⟩ := access_makes_one_transaction x s
    · exact .inl ⟨hdone, calls, x.addr, hb, haddr, hx⟩
    · exact .inr ⟨x, hwaits, hx, hb⟩
  · intro x s t hf h
    cases (step_of_inFlight hf).symm.trans h
    exact access_makes_one_transaction x s
  · intro i s t hrd hwr h
    obtain ⟨r, he⟩ := eightOperationsOnlyRespond i s hrd hwr
    cases he.symm.trans h
    exact ⟨rfl, rfl, rfl, rfl, rfl⟩
  · intro s t w rest hf hi hw h
    rw [step_of_command hf hi, runCommand_of_illegal hw] at h
    cases h
    exact ⟨rfl, hf, rfl, rfl, rfl⟩

/-! ## Read after write -/

/-- On the reference transport RAMWR answers OK and has set the byte at the mapped address and no other (R135, R49). -/
theorem ramwr_sets_the_mapped_byte (offset : BitVec 16) (v : Byte) {s : State} (ht : s.transport = .reference)
    (hwf : s.mem.wf = true) :
    ∃ t, exec (.ramwr offset v) s = .next t ∧ t.responses = ⟨.ok, 0⟩ :: s.responses ∧ t.transport = .reference ∧
      ∀ c, t.mem.read c = if c = 0x08 + offset.toNat % 56 then v else s.mem.read c := by
  obtain ⟨addr, haddr, hreference, -⟩ := ramOperationsOnTheReferenceTransport offset v s
  obtain ⟨-, hwrites⟩ := hreference ht
  obtain ⟨m, hexec, -, read_same, read_other⟩ := hwrites hwf
  rw [haddr] at read_same read_other
  refine ⟨_, hexec, rfl, ht, fun c => ?_⟩
  split
  · next hc => exact hc ▸ read_same
  · next hc => exact read_other c hc

/-- On the reference transport RAMRD answers OK with the byte of P at the mapped address (R133, R49). -/
theorem ramrd_reads_the_mapped_byte (offset : BitVec 16) {s : State} (ht : s.transport = .reference) :
    ∃ u, exec (.ramrd offset) s = .next u ∧
      u.responses = ⟨.ok, (s.mem.read (0x08 + offset.toNat % 56)).setWidth 32⟩ :: s.responses := by
  rw [exec_ramrd, access_of_reply (transact_read_of_reference _ ht), finish_read_delivered, mapOffset_toNat]
  exact ⟨_, rfl, rfl⟩

/-- Settles O44: the write sets one byte of P and the read gives one, the same one exactly when the offsets are congruent. -/
theorem readAfterWriteOnTheReferenceTransport : Obligations.ReadAfterWriteOnTheReferenceTransport := by
  intro a b v s ht hwf
  obtain ⟨t, hwrite, hrespA, htref, hmem⟩ := ramwr_sets_the_mapped_byte a v ht hwf
  obtain ⟨u, hread, hrespB⟩ := ramrd_reads_the_mapped_byte b htref
  refine ⟨t, u, hwrite, hrespA, hread, ?_⟩
  simp only [hrespB, hmem, Nat.add_left_cancel_iff, eq_comm (a := b.toNat % 56)]

end Sys2Proof.Machine
end

section
/-!
PROOFS. Exceptions (spec/60_exceptions.md): no command stops the machine (R150, R160), every instruction answers a next state in
the frame all ten share (R160, R35), and the statuses each operation can return (R151, R154, R155).
-/

namespace Sys2Proof.Machine

/-! ## What stops a step -/

/-- The idle CORE with nothing at its ports stays as it is (R170). -/
theorem step_of_no_input {s : State} (hf : s.inFlight = none) (hi : s.inputs = []) : step s = .next s := by
  simp only [step, hf, hi]

/-- The idle CORE's step lets a reset happen (R171). -/
theorem step_of_reset {s : State} {rest : List Input} (hf : s.inFlight = none) (hi : s.inputs = .reset :: rest) :
    step s = .next (coreReset { s with inputs := rest }) := by
  simp only [step, hf, hi]

/-- No instruction stops the machine (R160). -/
theorem exec_goes_on (i : Instr) (s : State) : ∃ t, exec i s = .next t := by
  obtain ⟨-, -, _, _, he, -⟩ | ⟨-, _, -, he⟩ := exec_cases i s
  · exact ⟨_, he⟩
  · exact ⟨_, he⟩

/-- No command word stops the machine, legal or not (R150). -/
theorem runCommand_goes_on (w : CommandWord) (s : State) : ∃ t, runCommand w s = .next t := by
  cases hd : decode w with
  | error e => exact ⟨_, runCommand_of_illegal (decode_error_iff.mp ⟨e, hd⟩) s⟩
  | ok i =>
    rw [runCommand_of_decode hd]
    exact exec_goes_on i s

/-- Settles O12: of all a step can find to do, only an out-of-band change can stop it, and only above the 64 locations of P. -/
theorem onlyAnExternalChangeOutsideTheSpaceStops : Obligations.OnlyAnExternalChangeOutsideTheSpaceStops := by
  intro s
  cases hf : s.inFlight with
  | some x => exact .inl ⟨_, step_of_inFlight hf⟩
  | none =>
    cases hi : s.inputs with
    | nil => exact .inl ⟨s, step_of_no_input hf hi⟩
    | cons input rest =>
      cases input with
      | command w =>
        rw [step_of_command hf hi]
        exact .inl (runCommand_goes_on w _)
      | external a v =>
        rw [step_of_external hf hi]
        obtain above | inside := Nat.lt_or_ge 0x3F a.toNat
        · exact .inr ⟨a, v, rest, rfl, rfl, above, externalChange_of_gt above v _⟩
        · exact .inl ⟨_, externalChange_of_le inside v _⟩
      | reset => exact .inl ⟨_, step_of_reset hf hi⟩

/-! ## The frame of a command -/

/-- Settles O17: a command only responds, or it is one access, and the access is in the window. -/
theorem everyCommandAnswersANextState : Obligations.EveryCommandAnswersANextState := by
  intro i s hwf
  obtain ⟨-, -, _, _, he, -⟩ | ⟨-, x, hx, he⟩ := exec_cases i s
  · exact ⟨_, he, rfl, rfl, rfl, fun _ _ => rfl⟩
  · exact ⟨_, he, access_params x s, access_inputs x s, access_transport x s, fun _ ha => access_read_outside hx hwf ha⟩

/-! ## The statuses that occur -/

/-- Some well-formed command of the operation answers the status from some state. -/
def OpReturns (o : Op) (st : Status) : Prop :=
  ∃ (i : Instr) (s t : State) (p : BitVec 32),
    i.op = o ∧ WellFormed i ∧ exec i s = .next t ∧ t.responses = ⟨st, p⟩ :: s.responses

/-- The machine right after reset, with this transport attached. -/
def resetOn (transport : Transport) : State := { State.reset with transport := transport }

/-- On the reference transport an access answers OK (R49). -/
theorem access_answers_ok (x : Transfer) {s : State} (ht : s.transport = .reference) :
    ∃ p, (access x s).responses = ⟨.ok, p⟩ :: s.responses := by
  cases x with
  | read a =>
    rw [access_of_reply (transact_read_of_reference a ht), finish_read_delivered]
    exact ⟨_, rfl⟩
  | write a v =>
    rw [access_of_reply (transact_write_of_reference a v ht), finish_write, if_pos rfl]
    exact ⟨_, rfl⟩

/-- On the failing variant an access answers TRANSPORT_FAILURE (R49). -/
theorem access_answers_transportFailure (x : Transfer) {s : State} (ht : s.transport = .failing) :
    (access x s).responses = ⟨.transportFailure, 0⟩ :: s.responses := by
  rw [access_of_reply (transact_of_failing x ht)]
  cases x with
  | read a => rw [finish_read_unacknowledged (by decide)]
  | write a v => rw [finish_write, if_neg (by decide)]

/-- Every operation can answer OK (R155). -/
theorem opReturns_ok (o : Op) : OpReturns o .ok := by
  cases o with
  | encbcd => exact ⟨.encbcd 59, .reset, _, _, rfl, rfl, exec_encbcd .., rfl⟩
  | decbcd => exact ⟨.decbcd 0x59 0xF 0xF, .reset, _, _, rfl, rfl, exec_decbcd .., rfl⟩
  | clamp =>
    exact ⟨.clamp 65 0 59, .reset, _, _, rfl, rfl, exec_clamp_of_le (r := 59) (by decide) (by decide) _, rfl⟩
  | timeenc =>
    exact ⟨.timeenc 0 0 0 false false Meridian.notApplicable.code, .reset, _, _, rfl, rfl,
      exec_timeenc ⟨0, 0, 0, false, false, .notApplicable⟩ _, rfl⟩
  | timedec => exact ⟨.timedec 0 0 0, .reset, _, _, rfl, rfl, exec_timedec .., rfl⟩
  | dateenc => exact ⟨.dateenc 1 1 1 0, .reset, _, _, rfl, rfl, exec_dateenc ⟨1, 1, 1, 0⟩ _, rfl⟩
  | datedec => exact ⟨.datedec 1 1 1 0, .reset, _, _, rfl, rfl, exec_datedec .., rfl⟩
  | mapoff => exact ⟨.mapoff 0, .reset, _, _, rfl, rfl, exec_mapoff .., rfl⟩
  | ramrd =>
    obtain ⟨p, hp⟩ := access_answers_ok (.read (mapOffset 0)) (s := resetOn .reference) rfl
    exact ⟨.ramrd 0, _, _, p, rfl, rfl, exec_ramrd .., hp⟩
  | ramwr =>
    obtain ⟨p, hp⟩ := access_answers_ok (.write (mapOffset 0) 1) (s := resetOn .reference) rfl
    exact ⟨.ramwr 0 1, _, _, p, rfl, rfl, exec_ramwr .., hp⟩

/-- CLAMP can answer OPERAND_FAULT: from 1 to 0 is an empty range (R82). -/
theorem clamp_returns_operandFault : OpReturns .clamp .operandFault :=
  ⟨.clamp 0 1 0, .reset, _, _, rfl, rfl, exec_clamp_of_lt (by decide) _, rfl⟩

/-- RAMRD can answer TRANSPORT_FAILURE (R134). -/
theorem ramrd_returns_transportFailure : OpReturns .ramrd .transportFailure :=
  ⟨.ramrd 0, resetOn .failing, _, _, rfl, rfl, exec_ramrd .., access_answers_transportFailure _ rfl⟩

/-- RAMWR can answer TRANSPORT_FAILURE (R136). -/
theorem ramwr_returns_transportFailure : OpReturns .ramwr .transportFailure :=
  ⟨.ramwr 0 1, resetOn .failing, _, _, rfl, rfl, exec_ramwr .., access_answers_transportFailure _ rfl⟩

/-- The table of R155, row by row. -/
theorem opReturns_iff {o : Op} {st : Status} : OpReturns o st ↔
    (st = .ok ∨ (st = .operandFault ∧ o = .clamp) ∨ (st = .transportFailure ∧ (o = .ramrd ∨ o = .ramwr))) := by
  constructor
  · rintro ⟨i, s, t, p, rfl, hwf, he, hr⟩
    obtain ok | fault | ⟨-, ill_formed⟩ | failure := status_of_exec he hr
    · exact .inl ok
    · exact .inr (.inl fault)
    · exact absurd hwf ill_formed
    · exact .inr (.inr failure)
  · rintro (rfl | ⟨rfl, rfl⟩ | ⟨rfl, rfl | rfl⟩)
    · exact opReturns_ok o
    · exact clamp_returns_operandFault
    · exact ramrd_returns_transportFailure
    · exact ramwr_returns_transportFailure

/-- Settles O19: a command's statuses are those of R155's table; a waiting transaction is an access, which answers OK on the
reference transport and TRANSPORT_FAILURE on its failing variant. -/
theorem statusesOfEachOperation : Obligations.StatusesOfEachOperation := by
  refine ⟨fun _ _ => opReturns_iff, fun x st => ⟨?_, ?_⟩⟩
  · rintro ⟨s, t, p, hf, h, hr⟩
    cases (step_of_inFlight hf).symm.trans h
    exact status_of_access hr
  · rintro (rfl | rfl)
    · obtain ⟨p, hp⟩ := access_answers_ok x (s := { resetOn .reference with inFlight := some x }) rfl
      exact ⟨_, _, p, rfl, step_of_inFlight rfl, hp⟩
    · exact ⟨{ resetOn .failing with inFlight := some x }, _, 0, rfl, step_of_inFlight rfl,
        access_answers_transportFailure x rfl⟩

end Sys2Proof.Machine
end

section
/-!
PROOFS. Reset and hazards (spec/70_reset_and_hazards.md): the CORE after reset and the reset of the idle CORE (R170, R171), the
parameters (R172), and the host's writes of the time and date registers with what they read back as (R175).
-/

namespace Sys2Proof.Machine

/-! ## Parameters -/

/-- Settles O13: of all a step can do, an access keeps the parameters by its own law, and nothing else names them. -/
theorem parametersAreNeverChanged : Obligations.ParametersAreNeverChanged := by
  intro s t h
  obtain ⟨x, -, rfl⟩ | ⟨-, hidle⟩ := step_cases h
  · exact access_params x s
  · obtain ⟨-, rfl⟩ | ⟨_, _, _, _, -, rfl, -⟩ | ⟨_, _, _, x, -, -, -, -, rfl⟩ | ⟨_, _, _, -, -, rfl⟩ | ⟨_, -, rfl⟩ := hidle
    · rfl
    · rfl
    · exact access_params x _
    · rfl
    · rfl

/-! ## Reset -/

/-- Settles O7: at reset the port is empty, and the step with a legal command at it is the general one. -/
theorem resetIsIdleAndReady : Obligations.ResetIsIdleAndReady :=
  ⟨rfl, rfl, fun _ => step_of_no_input, fun w i hd => stepRunsTheDecodedCommand _ w [] i rfl rfl hd⟩

/-- A reset of the idle CORE changes nothing (R171). -/
theorem coreReset_of_idle {s : State} (hf : s.inFlight = none) : coreReset s = s := by
  rw [coreReset, ← hf]

/-- Settles O8: the step takes the reset from the port, and the reset itself changes nothing. -/
theorem coreResetTouchesNothing : Obligations.CoreResetTouchesNothing := by
  intro s rest hf hi
  rw [step_of_reset hf hi, coreReset_of_idle (s := { s with inputs := rest }) hf]

/-- Settles O15: after reset nothing is in progress, recorded or answered, and no byte of P is listed. -/
theorem resetIsSafe : Obligations.ResetIsSafe where
  mem := rfl
  inFlight := nofun
  busLog := nofun
  responses := nofun

/-! ## The host's writes -/

/-- The host's writes of bytes to registers, as they stand at the port (R175; log entry 23). -/
def hostWrites (cells : List (Byte × Byte)) : List Input := cells.map fun (a, v) => .external a v

/-- P after writes of bytes to registers, in order. -/
def Memory.writeAll (m : Memory) (cells : List (Byte × Byte)) : Memory :=
  cells.foldl (fun m (a, v) => m.write a.toNat v) m

/-- A run goes on from what its first step answers. -/
theorem run_succ_of_step {s t : State} (h : step s = .next t) (k : Nat) :
    Host.Core.run Sys2Proof.core (k + 1) s = Host.Core.run Sys2Proof.core k t := by
  simp only [Host.Core.run, core, h]

/-- The idle CORE lets the host's writes to P happen, one a step, and nothing else changes. -/
theorem run_hostWrites {cells : List (Byte × Byte)} (inside : ∀ a ∈ cells.map Prod.fst, a.toNat ≤ 0x3F) {s : State}
    (hf : s.inFlight = none) :
    Host.Core.run Sys2Proof.core cells.length { s with inputs := hostWrites cells }
      = .next { s with inputs := [], mem := s.mem.writeAll cells } := by
  induction cells generalizing s with
  | nil => rfl
  | cons c cells ih =>
    obtain ⟨a, v⟩ := c
    obtain ⟨a_inside, rest_inside⟩ := List.forall_mem_cons.mp inside
    have first : step { s with inputs := hostWrites ((a, v) :: cells) }
        = .next { s with inputs := hostWrites cells, mem := s.mem.write a.toNat v } :=
      (step_of_external (s := { s with inputs := hostWrites ((a, v) :: cells) }) hf rfl).trans
        (externalChange_of_le a_inside v _)
    rw [List.length_cons, run_succ_of_step first]
    exact ih rest_inside (s := { s with mem := s.mem.write a.toNat v }) hf

/-- A register that is not written keeps its byte. -/
theorem Memory.read_writeAll_of_ne {cells : List (Byte × Byte)} (inside : ∀ a ∈ cells.map Prod.fst, a.toNat ≤ 0x3F)
    {m : Memory} (hwf : m.wf = true) {b : Nat} (hb : ∀ a ∈ cells.map Prod.fst, b ≠ a.toNat) :
    (m.writeAll cells).read b = m.read b := by
  induction cells generalizing m with
  | nil => rfl
  | cons c cells ih =>
    obtain ⟨a, v⟩ := c
    obtain ⟨a_inside, rest_inside⟩ := List.forall_mem_cons.mp inside
    obtain ⟨b_ne, rest_ne⟩ := List.forall_mem_cons.mp hb
    calc ((m.write a.toNat v).writeAll cells).read b
        = (m.write a.toNat v).read b := ih rest_inside (Memory.wf_write hwf (Nat.lt_succ_of_le a_inside)) rest_ne
      _ = m.read b := by rw [Memory.read_write hwf, if_neg b_ne]

/-- A register that is written once reads as the byte written. -/
theorem Memory.read_writeAll_of_mem {cells : List (Byte × Byte)} (inside : ∀ a ∈ cells.map Prod.fst, a.toNat ≤ 0x3F)
    (once : (cells.map Prod.fst).Nodup) {m : Memory} (hwf : m.wf = true) {a v : Byte} (hmem : (a, v) ∈ cells) :
    (m.writeAll cells).read a.toNat = v := by
  induction cells generalizing m with
  | nil => cases hmem
  | cons c cells ih =>
    obtain ⟨a_inside, rest_inside⟩ := List.forall_mem_cons.mp inside
    obtain ⟨a_not_mem, rest_once⟩ := List.nodup_cons.mp once
    have wf_first : (m.write c.1.toNat c.2).wf = true := Memory.wf_write hwf (Nat.lt_succ_of_le a_inside)
    obtain rfl | in_rest := List.mem_cons.mp hmem
    · have not_again : ∀ b ∈ cells.map Prod.fst, a.toNat ≠ b.toNat :=
        fun b hb e => a_not_mem (BitVec.eq_of_toNat_eq e ▸ hb)
      calc ((m.write a.toNat v).writeAll cells).read a.toNat
          = (m.write a.toNat v).read a.toNat := Memory.read_writeAll_of_ne rest_inside wf_first not_again
        _ = v := by rw [Memory.read_write hwf, if_pos rfl]
    · exact ih rest_inside rest_once wf_first in_rest

/-- Byte `i` of a bundle of four bytes (R36). -/
theorem payloadLane_bytes4 (b0 b1 b2 b3 : Byte) :
    payloadLane (b3 ++ b2 ++ b1 ++ b0) 0 = b0 ∧ payloadLane (b3 ++ b2 ++ b1 ++ b0) 1 = b1 ∧
    payloadLane (b3 ++ b2 ++ b1 ++ b0) 2 = b2 ∧ payloadLane (b3 ++ b2 ++ b1 ++ b0) 3 = b3 := by
  simp only [payloadLane, ← BitVec.toNat_inj, extract_toNat, append_toNat, Nat.reduceMul]
  omega

/-! ## The time registers -/

/-- The time registers with the bytes for them (R31, R175). -/
def timeCells (b0 b1 b2 : Byte) : List (Byte × Byte) :=
  [(Config.addrSeconds, b0), (Config.addrMinutes, b1), (Config.addrHours, b2)]

/-- The host writes the three bytes of a TIMEENC payload to the time registers (R175). -/
theorem storeTime_bytes (b0 b1 b2 : Byte) : storeTime (0#8 ++ b2 ++ b1 ++ b0) = hostWrites (timeCells b0 b1 b2) := by
  obtain ⟨lane₀, lane₁, lane₂, -⟩ := payloadLane_bytes4 b0 b1 b2 0#8
  rw [storeTime, lane₀, lane₁, lane₂]
  rfl

/-- The time registers are at 0x00 to 0x02 (R31). -/
theorem timeCells_range (b0 b1 b2 : Byte) : ∀ a ∈ (timeCells b0 b1 b2).map Prod.fst, a.toNat ≤ 0x02 := by
  show ∀ a ∈ [Config.addrSeconds, Config.addrMinutes, Config.addrHours], a.toNat ≤ 0x02
  decide

/-- P has the time registers (R30). -/
theorem timeCells_inside (b0 b1 b2 : Byte) : ∀ a ∈ (timeCells b0 b1 b2).map Prod.fst, a.toNat ≤ 0x3F :=
  fun a ha => (timeCells_range b0 b1 b2 a ha).trans (by decide)

/-- The host's three writes put the bytes of a TIMEENC payload into the time registers, and nothing else changes. -/
theorem run_storeTime {s : State} (hf : s.inFlight = none) (b0 b1 b2 : Byte) :
    Host.Core.run Sys2Proof.core 3 { s with inputs := storeTime (0#8 ++ b2 ++ b1 ++ b0) }
      = .next { s with inputs := [], mem := s.mem.writeAll (timeCells b0 b1 b2) } := by
  rw [storeTime_bytes]
  exact run_hostWrites (timeCells_inside b0 b1 b2) hf

/-- After the host has written the time registers, what it reads from them is what it wrote (R175). -/
theorem loadTime_writeAll {m : Memory} (hwf : m.wf = true) (b0 b1 b2 : Byte) :
    loadTime (m.writeAll (timeCells b0 b1 b2)) = .timedec b0 b1 b2 := by
  have once : ((timeCells b0 b1 b2).map Prod.fst).Nodup := by
    show [Config.addrSeconds, Config.addrMinutes, Config.addrHours].Nodup
    decide
  have read {a v : Byte} (h : (a, v) ∈ timeCells b0 b1 b2) : (m.writeAll (timeCells b0 b1 b2)).read a.toNat = v :=
    Memory.read_writeAll_of_mem (timeCells_inside b0 b1 b2) once hwf h
  rw [loadTime, read (v := b0) (by simp [timeCells]), read (v := b1) (by simp [timeCells]),
    read (v := b2) (by simp [timeCells])]

/-- Settles O46: the host reads back the bytes it wrote, and TIMEDEC of them gives a valid time back. -/
theorem settingTheTimeAndReadingItBack : Obligations.SettingTheTimeAndReadingItBack := by
  intro second minute hour osc mode meridian s hf hwf hsecond hminute h12 h24
  obtain ⟨b0, b1, b2, henc, hdec⟩ := timedec_timeenc_of_valid hsecond hminute h12 h24 s s
  rw [exec_timedec, next_ok_inj, encode_timeenc_payload] at hdec
  refine ⟨_, _, henc, run_storeTime hf b0 b1 b2, ?_, fun a ha => ?_⟩
  · rw [loadTime_writeAll hwf, exec_timedec, hdec]
  · refine Memory.read_writeAll_of_ne (timeCells_inside b0 b1 b2) hwf fun b hb => ?_
    have written := timeCells_range b0 b1 b2 b hb
    omega

/-! ## The date registers -/

/-- The date registers with the bytes for them (R31, R175). -/
def dateCells (b0 b1 b2 b3 : Byte) : List (Byte × Byte) :=
  [(Config.addrDow, b0), (Config.addrDom, b1), (Config.addrMonth, b2), (Config.addrYear, b3)]

/-- The host writes the four bytes of a DATEENC payload to the date registers (R175). -/
theorem storeDate_bytes (b0 b1 b2 b3 : Byte) :
    storeDate (b3 ++ b2 ++ b1 ++ b0) = hostWrites (dateCells b0 b1 b2 b3) := by
  obtain ⟨lane₀, lane₁, lane₂, lane₃⟩ := payloadLane_bytes4 b0 b1 b2 b3
  rw [storeDate, lane₀, lane₁, lane₂, lane₃]
  rfl

/-- The date registers are at 0x03 to 0x06 (R31). -/
theorem dateCells_range (b0 b1 b2 b3 : Byte) :
    ∀ a ∈ (dateCells b0 b1 b2 b3).map Prod.fst, 0x03 ≤ a.toNat ∧ a.toNat ≤ 0x06 := by
  show ∀ a ∈ [Config.addrDow, Config.addrDom, Config.addrMonth, Config.addrYear], 0x03 ≤ a.toNat ∧ a.toNat ≤ 0x06
  decide

/-- P has the date registers (R30). -/
theorem dateCells_inside (b0 b1 b2 b3 : Byte) : ∀ a ∈ (dateCells b0 b1 b2 b3).map Prod.fst, a.toNat ≤ 0x3F :=
  fun a ha => (dateCells_range b0 b1 b2 b3 a ha).2.trans (by decide)

/-- The host's four writes put the bytes of a DATEENC payload into the date registers, and nothing else changes. -/
theorem run_storeDate {s : State} (hf : s.inFlight = none) (b0 b1 b2 b3 : Byte) :
    Host.Core.run Sys2Proof.core 4 { s with inputs := storeDate (b3 ++ b2 ++ b1 ++ b0) }
      = .next { s with inputs := [], mem := s.mem.writeAll (dateCells b0 b1 b2 b3) } := by
  rw [storeDate_bytes]
  exact run_hostWrites (dateCells_inside b0 b1 b2 b3) hf

/-- After the host has written the date registers, what it reads from them is what it wrote (R175). -/
theorem loadDate_writeAll {m : Memory} (hwf : m.wf = true) (b0 b1 b2 b3 : Byte) :
    loadDate (m.writeAll (dateCells b0 b1 b2 b3)) = .datedec b0 b1 b2 b3 := by
  have once : ((dateCells b0 b1 b2 b3).map Prod.fst).Nodup := by
    show [Config.addrDow, Config.addrDom, Config.addrMonth, Config.addrYear].Nodup
    decide
  have read {a v : Byte} (h : (a, v) ∈ dateCells b0 b1 b2 b3) : (m.writeAll (dateCells b0 b1 b2 b3)).read a.toNat = v :=
    Memory.read_writeAll_of_mem (dateCells_inside b0 b1 b2 b3) once hwf h
  rw [loadDate, read (v := b0) (by simp [dateCells]), read (v := b1) (by simp [dateCells]),
    read (v := b2) (by simp [dateCells]), read (v := b3) (by simp [dateCells])]

/-- Settles O47: the host reads back the bytes it wrote, and DATEDEC of them gives a valid date back. -/
theorem settingTheDateAndReadingItBack : Obligations.SettingTheDateAndReadingItBack := by
  intro dow dom month year s hf hwf dow_ge dow_le dom_ge dom_le month_ge month_le year_le
  let d : DateValue := ⟨dow, dom, month, year⟩
  have valid : d.valid = true := DateValue.valid_iff.mpr ⟨dow_ge, dow_le, dom_ge, dom_le, month_ge, month_le, year_le⟩
  refine ⟨_, _, exec_dateenc d s, run_storeDate hf .., ?_, fun a ha => ?_⟩
  · rw [loadDate_writeAll hwf, exec_datedec, decodeDate_of_valid valid, payloadDate]
  · refine Memory.read_writeAll_of_ne (dateCells_inside _ _ _ _) hwf fun b hb => ?_
    have written := dateCells_range _ _ _ _ b hb
    omega

end Sys2Proof.Machine
end

section
/-!
PROOFS. ENCBCD of a value from 100 on (R71): the tens lose their bits above bit 3 (decision D5 of the spec, log entry 9).
-/

namespace Sys2Proof.Machine

/-- Settles O23: the byte is that of `encodeBcd`, whose nibbles are known for every number; that the value is from 100 on is
not used, since R70 and R71 have one formula. -/
theorem encbcdFrom100LosesTensBits : Obligations.EncbcdFrom100LosesTensBits := by
  intro value s _
  exact ⟨encodeBcd value.toNat, exec_encbcd value s, encodeBcd_tens _, encodeBcd_ones _⟩

end Sys2Proof.Machine
end
